-- ==== Sys2Proof/Word.lean ====
section
/-! DEFINITION. The words the block moves and the small containers every other file uses: the
16-bit command word (30_encoding.md R53), the two edge sources (00_scope.md R8), the drives of a
phase line (40_edge_detect.md R67), and a pair of one value per source. -/

namespace Sys2Proof

/-- A host command word, `CMD[15:0]` (30_encoding.md R53). -/
abbrev CmdWord := BitVec 16

/-- The edge sources; also the name of a source's phase line and of its service channel
(00_scope.md R8, R14). -/
inductive Src where
  | a
  | b
deriving DecidableEq, Repr

/-- The source index, the last tie-break of the priority key (41_service.md R74). -/
def Src.idx : Src → Nat
  | .a => 0
  | .b => 1

/-- The other of the two sources. -/
def Src.other : Src → Src
  | .a => .b
  | .b => .a

/-- What ENV applies to a phase line (40_edge_detect.md R67): 0, 1, or Z for undriven. -/
inductive Drive where
  | low
  | high
  | z
deriving DecidableEq, Repr

/-- One value for each edge source: `X_A` is `a` and `X_B` is `b`. -/
structure Pair (α : Type) where
  a : α
  b : α
deriving DecidableEq, Repr

/-- The value of source `x`. -/
def Pair.get {α : Type} (p : Pair α) : Src → α
  | .a => p.a
  | .b => p.b

/-- The pair with source `x`'s value replaced. -/
def Pair.set {α : Type} (p : Pair α) (x : Src) (v : α) : Pair α :=
  match x with
  | .a => { p with a := v }
  | .b => { p with b := v }

end Sys2Proof
end

