-- ==== Sys2Proof/Syntax.lean ====
section
/-! DEFINITION. The host commands, one constructor per row of spec/opcode_table.json
(30_encoding.md R58). Operands have exactly the width of their field (30_encoding.md R55). -/

namespace Sys2Proof

/-- A host command (42_host_commands.md section 2). -/
inductive Instr where
  /-- NOP (R87). -/
  | nop
  /-- INIT with the priorities of phase A and phase B (R88). -/
  | init (pa pb : BitVec 4)
  /-- TAKE, the source's `TakeDelta` (R90). -/
  | take
  /-- SETEN with the enables of source A and source B (R92). -/
  | seten (ea eb : Bool)
  /-- STAT (R94). -/
  | stat
deriving DecidableEq, Repr

end Sys2Proof
end

