-- ==== Sys2Proof/Decode.lean ====
section
/-! DEFINITION. The decoder of 30_encoding.md R58 (total on 16-bit words, rejecting by name), the
encoder written from the same table, and the table's numbering of bits. -/

namespace Sys2Proof

/-- `OP = CMD[15:12]` (30_encoding.md R54). -/
def opField (w : CmdWord) : BitVec 4 := w.extractLsb' 12 4

/-- `ARG = CMD[11:0]` (30_encoding.md R54). -/
def argField (w : CmdWord) : BitVec 12 := w.extractLsb' 0 12

/-- INIT's `PA = CMD[3:0]` (30_encoding.md R55). -/
def paField (w : CmdWord) : BitVec 4 := w.extractLsb' 0 4

/-- INIT's `PB = CMD[7:4]` (30_encoding.md R55). -/
def pbField (w : CmdWord) : BitVec 4 := w.extractLsb' 4 4

/-- INIT's `RSV = CMD[11:8]` (30_encoding.md R55). -/
def initRsv (w : CmdWord) : BitVec 4 := w.extractLsb' 8 4

/-- SETEN's `EA = CMD[0]` (30_encoding.md R55, R57). -/
def eaField (w : CmdWord) : Bool := w.getLsbD 0

/-- SETEN's `EB = CMD[1]` (30_encoding.md R55, R57). -/
def ebField (w : CmdWord) : Bool := w.getLsbD 1

/-- SETEN's `RSV = CMD[11:2]` (30_encoding.md R55). -/
def setenRsv (w : CmdWord) : BitVec 10 := w.extractLsb' 2 10

/-- Why a word is no command: a reserved opcode (30_encoding.md R59), or a nonzero bit in a field
that must be zero (R60). Both are ILLEGAL_CMD (42_host_commands.md R97). -/
inductive DecodeError where
  | reservedOpcode
  | reservedBits
deriving DecidableEq, Repr

/-- Opcodes 0x5 to 0xF are reserved (30_encoding.md R59). -/
def opReserved (w : CmdWord) : Bool := decide (5 ≤ (opField w).toNat)

/-- For a defined opcode: every field 30_encoding.md R55 shows as 0 or RSV is zero (R60). -/
def reservedFieldsZero (w : CmdWord) : Bool :=
  if opField w = 0x1#4 then decide (initRsv w = 0#4)
  else if opField w = 0x3#4 then decide (setenRsv w = 0#10)
  else decide (argField w = 0#12)

/-- A row of the opcode map: a word `w` is the row's command when `w &&& mask = pattern`
(30_encoding.md R58). -/
structure OpRow where
  pattern : CmdWord
  mask : CmdWord
deriving DecidableEq, Repr

/-- `w` matches the row. -/
def OpRow.hit (r : OpRow) (w : CmdWord) : Bool := decide (w &&& r.mask = r.pattern)

/-- NOP's row (30_encoding.md R58). -/
def nopRow : OpRow := { pattern := 0x0000#16, mask := 0xFFFF#16 }
/-- INIT's row (30_encoding.md R58). -/
def initRow : OpRow := { pattern := 0x1000#16, mask := 0xFF00#16 }
/-- TAKE's row (30_encoding.md R58). -/
def takeRow : OpRow := { pattern := 0x2000#16, mask := 0xFFFF#16 }
/-- SETEN's row (30_encoding.md R58). -/
def setenRow : OpRow := { pattern := 0x3000#16, mask := 0xFFFC#16 }
/-- STAT's row (30_encoding.md R58). -/
def statRow : OpRow := { pattern := 0x4000#16, mask := 0xFFFF#16 }

/-- The complete map, in the order of 30_encoding.md R58. -/
def opcodeRows : List OpRow := [nopRow, initRow, takeRow, setenRow, statRow]

/-- The command a word encodes, or why it is illegal (30_encoding.md R58 to R60). -/
def decode (w : CmdWord) : Except DecodeError Instr :=
  if nopRow.hit w then .ok .nop
  else if initRow.hit w then .ok (.init (paField w) (pbField w))
  else if takeRow.hit w then .ok .take
  else if setenRow.hit w then .ok (.seten (eaField w) (ebField w))
  else if statRow.hit w then .ok .stat
  else if opReserved w then .error .reservedOpcode
  else .error .reservedBits

/-- The row of a command (30_encoding.md R58). -/
def Instr.row : Instr → OpRow
  | .nop => nopRow
  | .init _ _ => initRow
  | .take => takeRow
  | .seten _ _ => setenRow
  | .stat => statRow

/-- The word of a command: OP in [15:12] and the operand layout of 30_encoding.md R55. -/
def encode : Instr → CmdWord
  | .nop => 0x0#4 ++ 0#12
  | .init pa pb => 0x1#4 ++ 0#4 ++ pb ++ pa
  | .take => 0x2#4 ++ 0#12
  | .seten ea eb => 0x3#4 ++ 0#10 ++ BitVec.ofBool eb ++ BitVec.ofBool ea
  | .stat => 0x4#4 ++ 0#12

/-- The command word that the table's bits `w` stand for: `nbits` of them, the bits above zero. -/
def tableWord (nbits w : Nat) : CmdWord := BitVec.ofNat 16 (w % 2 ^ nbits)

/-- What the decoder reads from a row of spec/opcode_table.json. A command is one 16-bit word and no
other length exists (30_encoding.md R53, R62), so more than 16 bits are no command. -/
def decodeTableWord (nbits w : Nat) : Option Instr :=
  if nbits ≤ 16 then
    match decode (tableWord nbits w) with
    | .ok i => some i
    | .error _ => none
  else none

end Sys2Proof
end

