-- ==== Sys2Proof/Config.lean ====
section
/-! DEFINITION. What the spec leaves to the implementation: the parameters `COUNT_W`,
`OVF_POLICY` and `BUS_BYTE_ORDER` (00_scope.md R6, R7, R10) and the free values behind `draw`
(00_scope.md R13). -/

namespace Sys2Proof

/-- `OVF_POLICY` (00_scope.md R7): what an add to COUNT does outside the signed range. -/
inductive OvfPolicy where
  | wrap
  | saturate
deriving DecidableEq, Repr

/-- `BUS_BYTE_ORDER` (00_scope.md R10; 20_memory.md R41): which byte of a word stands at the lowest
address of a platform's byte-addressed bus. The spec names no values; these two are PRESUMED
(unsafe), notes/assumptions/15.md. -/
inductive BusByteOrder where
  /-- The least significant byte first. -/
  | little
  /-- The most significant byte first. -/
  | big
deriving DecidableEq, Repr

/-- The implementation's parameters. DESIGN CHOICE (safe), notes/assumptions/5.md: they are data
that the state carries and no step writes, so that a statement about every state is a statement
about every implementation. The width is held as what it has beyond 16 bits, since
`COUNT_W >= 16` (00_scope.md R6). -/
structure Params where
  extraBits : Nat
  ovf : OvfPolicy
  /-- `BUS_BYTE_ORDER` where a platform places the ports on a byte-addressed bus, `none` where it places
  them on no such bus (00_scope.md R10). -/
  busOrder : Option BusByteOrder
deriving DecidableEq, Repr

/-- `COUNT_W`, the width of COUNT and of RDATA (00_scope.md R6). -/
def Params.countW (p : Params) : Nat := 16 + p.extraBits

/-- The spec's defaults: `COUNT_W = 16` and `OVF_POLICY = wrap` (00_scope.md R6, R7). `BUS_BYTE_ORDER` has
no default (92_eei_decisions.md), so the default is the block by itself, on no byte-addressed bus
(notes/assumptions/15.md). -/
def Params.default : Params := { extraBits := 0, ovf := .wrap, busOrder := none }

/-- The `n`-th free choice of a run: what `draw({0, 1})` answers (00_scope.md R13), and which of two
enabled internal steps comes first once the script has ended. A FREE VALUE, with no body: nothing
can be proved about it. DESIGN CHOICE (safe), notes/assumptions/6.md and 2.md. -/
opaque Config.freeBit : Nat → Bool

end Sys2Proof
end

