-- ==== Sys2Proof/Machine/State.lean ====
section
/-! DEFINITION. The block's whole state (10_state.md), the lines a run is made of (30_encoding.md
R66), the ways a step can stop, and the state at the start of a run. -/

namespace Sys2Proof.Machine

/-- `PHASE_X` (10_state.md R22). -/
inductive Phase where
  | idle
  | granted
  | sampled
deriving DecidableEq, Repr

/-- `DELTA_X`: -1, 0 or +1 (10_state.md R23). -/
inductive Delta where
  | minus
  | zero
  | plus
deriving DecidableEq, Repr

/-- The integer a delta denotes (10_state.md R23). -/
def Delta.toInt : Delta → Int
  | .minus => -1
  | .zero => 0
  | .plus => 1

/-- `ERRCODE` (60_exceptions.md R98). Code 3 is reserved and never raised; it has no name here, so
that no state holds it. DEDUCED (safe), notes/assumptions/10.md. -/
inductive ErrCode where
  /-- 0, no fault since RESET. -/
  | none
  /-- 1, an illegal command word. -/
  | illegalCmd
  /-- 2, INIT during a service. -/
  | initActive
deriving DecidableEq, Repr

/-- The 2-bit value of a fault code (60_exceptions.md R98). -/
def ErrCode.bits : ErrCode → BitVec 2
  | .none => 0#2
  | .illegalCmd => 1#2
  | .initActive => 2#2

/-- One line of a run: a step of one agent (30_encoding.md R66, 00_scope.md R14). -/
inductive Event where
  /-- ENV drives a line (40_edge_detect.md R69). -/
  | drive (l : Src) (v : Drive)
  /-- ARB grants (41_service.md R76). -/
  | grant
  /-- Channel `x` samples (41_service.md R79, R80). -/
  | sample (x : Src)
  /-- Channel `x` commits (41_service.md R82). -/
  | commit (x : Src)
  /-- HOST presents a command word (42_host_commands.md R86). -/
  | host (w : CmdWord)
  /-- The reset event (70_reset_and_hazards.md R114). -/
  | reset
deriving DecidableEq, Repr

/-- The state. The names are those of 10_state.md; the last two fields are the model's own. -/
structure State where
  /-- `COUNT_W`, `OVF_POLICY` and `BUS_BYTE_ORDER` (00_scope.md R6, R7, R10); no step writes them. -/
  params : Params
  /-- `COUNT`, the signed counter EncoderCount (R20), as the integer its pattern denotes.
  DESIGN CHOICE (safe), notes/assumptions/9.md. -/
  count : Int
  /-- `RDATA`, the response word (R32), as the number its `COUNT_W` bits denote.
  DESIGN CHOICE (safe), notes/assumptions/9.md. -/
  rdata : Nat
  /-- `PEND_A`, `PEND_B` (R26). -/
  pend : Pair Bool
  /-- `EN_A`, `EN_B` (R27). -/
  en : Pair Bool
  /-- `ARMED` (R28). -/
  armed : Bool
  /-- `PRIO_A`, `PRIO_B` (R29). -/
  prio : Pair (BitVec 4)
  /-- `PHASE_A`, `PHASE_B` (R22). -/
  phase : Pair Phase
  /-- `DELTA_A`, `DELTA_B` (R23). -/
  delta : Pair Delta
  /-- `STACK`, the last element the top (R24). -/
  stack : List Src
  /-- `ERR` (R30). -/
  err : Bool
  /-- `ERRCODE` (R30). -/
  errcode : ErrCode
  /-- `DRV_A`, `DRV_B` (R31). -/
  drv : Pair Drive
  /-- The run is marked faulted (60_exceptions.md R99); nothing clears it. -/
  faulted : Bool
  /-- The model's own: how many free values the run has drawn (notes/assumptions/6.md). -/
  draws : Nat
  /-- The model's own: the lines still to be taken, first line first (30_encoding.md R66).
  DESIGN CHOICE (safe), notes/assumptions/1.md. -/
  script : List Event
deriving DecidableEq, Repr

/-- Why a step stops. Each is the spec's outcome "stuck" (00_scope.md R16), never a fault of the
block: the block's own faults are next states (60_exceptions.md R99, notes/assumptions/4.md).
DESIGN CHOICE (safe), notes/assumptions/3.md. -/
inductive Fault where
  /-- Raised by a GRANT line when no source is eligible (41_service.md R76). Safe: such a line is no
  step of the spec. -/
  | grantNotEnabled
  /-- Raised by a SAMPLE line of a channel that is not on top in phase GRANTED (41_service.md R79,
  R80). Safe: such a line is no step of the spec. -/
  | sampleNotEnabled (x : Src)
  /-- Raised by a COMMIT line of a channel that is not on top in phase SAMPLED (41_service.md R82).
  Safe: such a line is no step of the spec. -/
  | commitNotEnabled (x : Src)
  /-- Raised when no line is left and no internal step is enabled: the end of a run
  (70_reset_and_hazards.md R129). Safe: the spec gives no further step. -/
  | quiescent
deriving DecidableEq, Repr

/-- Why an instruction has no meaning. "The block has no refusal of a well-encoded command"
(00_scope.md R16), so nothing refuses. -/
inductive Refusal where
  /-- Raised by no arm of this model: every command has its meaning. Safe. -/
  | notModelled (mnemonic : String)
deriving DecidableEq, Repr

/-- The state at the start of a run: every element at its reset value (10_state.md R36). The spec
gives no value for these, which the log names: both drives Z (DESIGN CHOICE, unsafe,
notes/assumptions/7.md), no line to take (8.md), the parameters' defaults (5.md) and no bus (15.md),
no draw made (6.md), the run not faulted (4.md). -/
def State.reset : State where
  params := Params.default
  count := 0
  rdata := 0
  pend := ⟨false, false⟩
  en := ⟨false, false⟩
  armed := false
  prio := ⟨0x0#4, 0x0#4⟩
  phase := ⟨.idle, .idle⟩
  delta := ⟨.zero, .zero⟩
  stack := []
  err := false
  errcode := .none
  drv := ⟨.z, .z⟩
  faulted := false
  draws := 0
  script := []

/-- `COUNT_W` of this block (00_scope.md R6). -/
def State.countW (s : State) : Nat := s.params.countW

end Sys2Proof.Machine
end

