-- ==== Sys2Proof/Machine/Flags.lean ====
section
/-! DEFINITION. The STATUS view (10_state.md R33). The block has no arithmetic flags (R34). -/

namespace Sys2Proof.Machine

/-- The channel is in service: `PHASE_X != IDLE` (10_state.md R33, ACT_X). -/
def State.act (s : State) (x : Src) : Bool := decide (s.phase.get x ≠ .idle)

/-- Bits 11 to 0 of STATUS, bit 11 first, with the levels read at this step (10_state.md R33). The
bits above 11 read 0. -/
def statusView (s : State) (lvlA lvlB : Bool) : BitVec 12 :=
  s.errcode.bits ++ BitVec.ofBool s.err ++ BitVec.ofBool s.en.b ++ BitVec.ofBool s.en.a ++
    BitVec.ofBool s.armed ++ BitVec.ofBool lvlB ++ BitVec.ofBool lvlA ++
    BitVec.ofBool (s.act .b) ++ BitVec.ofBool (s.act .a) ++
    BitVec.ofBool s.pend.b ++ BitVec.ofBool s.pend.a

end Sys2Proof.Machine
end

