-- ==== Sys2Proof/Machine/Arith.lean ====
section
/-! DEFINITION. The arithmetic of 00_scope.md R12: two's-complement patterns, wrap-around,
saturation, and the add to COUNT. -/

namespace Sys2Proof.Machine

/-- The least signed `n`-bit integer, `-2^(n-1)` (00_scope.md R12). -/
def sintMin (n : Nat) : Int := -(2 ^ (n - 1))

/-- The greatest signed `n`-bit integer, `2^(n-1) - 1` (00_scope.md R12). -/
def sintMax (n : Nat) : Int := 2 ^ (n - 1) - 1

/-- `i` is a signed `n`-bit integer (00_scope.md R12). -/
abbrev InSint (n : Nat) (i : Int) : Prop := sintMin n ≤ i ∧ i ≤ sintMax n

/-- `wrap_n(i)`: the integer of the signed `n`-bit range that is `i` modulo `2^n` (00_scope.md
R12). -/
def wrapN (n : Nat) (i : Int) : Int := (i + 2 ^ (n - 1)) % 2 ^ n - 2 ^ (n - 1)

/-- `sat_n(i) = min(max(i, -2^(n-1)), 2^(n-1)-1)` (00_scope.md R12). -/
def satN (n : Nat) (i : Int) : Int := min (max i (sintMin n)) (sintMax n)

/-- The `n`-bit two's-complement pattern of an integer, as a number (00_scope.md R12). -/
def patternN (n : Nat) (i : Int) : Nat := (i % 2 ^ n).toNat

/-- `sint_n(p)`: the integer that the `n`-bit pattern `p` denotes (00_scope.md R12). -/
def sintN (n p : Nat) : Int := if 2 * p < 2 ^ n then (p : Int) else (p : Int) - 2 ^ n

/-- `add_count(c, d)` (00_scope.md R12). -/
def addCount (p : Params) (c d : Int) : Int :=
  match p.ovf with
  | .wrap => wrapN p.countW (c + d)
  | .saturate => satN p.countW (c + d)

end Sys2Proof.Machine
end

