-- ==== Sys2Proof/Machine/Operands.lean ====
section
/-! DEFINITION. Priority operands and their order (30_encoding.md R56; 10_state.md R29;
41_service.md R74). -/

namespace Sys2Proof.Machine

/-- `pre = P[3:2]`, unsigned, smaller more urgent (30_encoding.md R56). -/
def preOf (p : BitVec 4) : BitVec 2 := p.extractLsb' 2 2

/-- `sub = P[1:0]`, unsigned, smaller more urgent (30_encoding.md R56). -/
def subOf (p : BitVec 4) : BitVec 2 := p.extractLsb' 0 2

/-- The preemption level of source `x` (10_state.md R29). -/
def State.pre (s : State) (x : Src) : Nat := (preOf (s.prio.get x)).toNat

/-- The sub-priority of source `x` (10_state.md R29). -/
def State.sub (s : State) (x : Src) : Nat := (subOf (s.prio.get x)).toNat

/-- A priority key, `(pre, sub, idx)` (41_service.md R74). -/
structure Key where
  pre : Nat
  sub : Nat
  idx : Nat
deriving DecidableEq, Repr

/-- The lexicographic order of keys; the smaller key has the higher priority (41_service.md R74). -/
def keyLt (k l : Key) : Bool :=
  decide (k.pre < l.pre) ||
    (decide (k.pre = l.pre) &&
      (decide (k.sub < l.sub) || (decide (k.sub = l.sub) && decide (k.idx < l.idx))))

/-- `key(X)` (41_service.md R74). -/
def State.key (s : State) (x : Src) : Key :=
  { pre := s.pre x, sub := s.sub x, idx := x.idx }

end Sys2Proof.Machine
end

