-- ==== Sys2Proof/Machine/Ops.lean ====
section
/-! DEFINITION. The named operations over the state: free draws, the read level of a phase line,
the response word, raising a fault, and entering and leaving a service. -/

namespace Sys2Proof.Machine

/-- A fresh free value, and the state with the draw counted (00_scope.md R13). -/
def drawBit (s : State) : Bool × State :=
  (Config.freeBit s.draws, { s with draws := s.draws + 1 })

/-- The read level of a line with drive `d`, the pull-up on or off, when `k` draws have been made, and
the draws made after it (40_edge_detect.md R68): `true` is 1. Only a floating line draws. -/
def levelAt (d : Drive) (pullUp : Bool) (k : Nat) : Bool × Nat :=
  match d with
  | .low => (false, k)
  | .high => (true, k)
  | .z => if pullUp then (true, k) else (Config.freeBit k, k + 1)

/-- `lvl(L)`, read at this step (40_edge_detect.md R68). -/
def readLevel (l : Src) (s : State) : Bool × State :=
  ((levelAt (s.drv.get l) s.armed s.draws).1,
    { s with draws := (levelAt (s.drv.get l) s.armed s.draws).2 })

/-- `respond(v)`: `v` on the response word (00_scope.md R13). -/
def respond (v : Nat) (s : State) : State := { s with rdata := v }

/-- `raise Fault(code)` (60_exceptions.md R99): the first fault's code is kept, RDATA is 0, the run is
marked faulted, nothing else changes. -/
def raiseFault (code : ErrCode) (s : State) : State :=
  { s with
    err := true
    errcode := if s.err then s.errcode else code
    rdata := 0
    faulted := true }

/-- `top(STACK)` (10_state.md R24). -/
def State.top (s : State) : Option Src := s.stack.getLast?

/-- Service entry (60_exceptions.md R104; 41_service.md R76): acknowledge, phase GRANTED, push. -/
def enterService (x : Src) (s : State) : State :=
  { s with
    pend := s.pend.set x false
    phase := s.phase.set x .granted
    stack := s.stack ++ [x] }

/-- Service return (60_exceptions.md R105; 41_service.md R82): phase IDLE, pop. -/
def leaveService (x : Src) (s : State) : State :=
  { s with
    phase := s.phase.set x .idle
    stack := s.stack.dropLast }

end Sys2Proof.Machine
end

