-- ==== Sys2Proof/Machine/HostCommands.lean ====
section
/-! DEFINITION. The meanings of the host commands (42_host_commands.md). -/

namespace Sys2Proof.Machine

/-- NOP (42_host_commands.md R87). -/
def execNop (s : State) : Host.Outcome State Fault Refusal :=
  .next (respond 0 s)

/-- INIT's effect on an idle block (42_host_commands.md R88). COUNT and PEND are not written. -/
def armBlock (pa pb : BitVec 4) (s : State) : State :=
  { s with armed := true, prio := ⟨pa, pb⟩, en := ⟨true, true⟩ }

/-- INIT (42_host_commands.md R88, R89): faults INIT_ACTIVE while a service is in progress. -/
def execInit (pa pb : BitVec 4) (s : State) : Host.Outcome State Fault Refusal :=
  if s.stack = [] then .next (respond 0 (armBlock pa pb s)) else .next (raiseFault .initActive s)

/-- TAKE (42_host_commands.md R90): respond with COUNT's pattern and zero it, in one step. -/
def execTake (s : State) : Host.Outcome State Fault Refusal :=
  .next (respond (patternN s.countW s.count) { s with count := 0 })

/-- SETEN (42_host_commands.md R92). -/
def execSeten (ea eb : Bool) (s : State) : Host.Outcome State Fault Refusal :=
  .next (respond 0 { s with en := ⟨ea, eb⟩ })

/-- STAT (42_host_commands.md R94): the STATUS view, zero-extended to `COUNT_W` bits. -/
def execStat (s : State) : Host.Outcome State Fault Refusal :=
  let ra := readLevel .a s
  let rb := readLevel .b ra.2
  .next (respond (statusView rb.2 ra.1 rb.1).toNat rb.2)

/-- An illegal command word (42_host_commands.md R97). -/
def illegalCommand (s : State) : Host.Outcome State Fault Refusal :=
  .next (raiseFault .illegalCmd s)

end Sys2Proof.Machine
end

