-- ==== Sys2Proof/Machine/Dispatch.lean ====
section
/-! DEFINITION. One arm per host command. -/

namespace Sys2Proof.Machine

def exec (i : Instr) (s : State) : Host.Outcome State Fault Refusal :=
  match i with
  | .nop => Sys2Proof.Machine.execNop s
  | .init pa pb => Sys2Proof.Machine.execInit pa pb s
  | .take => Sys2Proof.Machine.execTake s
  | .seten ea eb => Sys2Proof.Machine.execSeten ea eb s
  | .stat => Sys2Proof.Machine.execStat s

end Sys2Proof.Machine
end

