-- ==== Sys2Proof/Machine/EdgeDetect.lean ====
section
/-! DEFINITION. The falling-edge detector and ENV's step (40_edge_detect.md). -/

namespace Sys2Proof.Machine

/-- A falling edge: the read level went from 1 to 0 while armed (40_edge_detect.md R70). -/
def fallingEdge (armed old new : Bool) : Bool := armed && old && !new

/-- DRIVE (40_edge_detect.md R69): read, set the drive, read again, latch a falling edge. The latch
is gated by ARMED alone (R72) and merges (R71). -/
def driveLine (l : Src) (v : Drive) (s : State) : State :=
  let r0 := readLevel l s
  let r1 := readLevel l { r0.2 with drv := r0.2.drv.set l v }
  if fallingEdge s.armed r0.1 r1.1 then
    { r1.2 with pend := r1.2.pend.set l true }
  else r1.2

end Sys2Proof.Machine
end

