-- ==== Sys2Proof/Machine/Reset.lean ====
section
/-! DEFINITION. The reset event (70_reset_and_hazards.md R114, R115). -/

namespace Sys2Proof.Machine

/-- RESET: every element of the block to its reset value (10_state.md R36). The drives are ENV's and
stay (R31), the fault mark stays (60_exceptions.md R99), and so do the parameters, the draws made
and the lines to come. DEDUCED (safe), notes/assumptions/11.md. -/
def resetBlock (s : State) : State :=
  { State.reset with
    params := s.params
    drv := s.drv
    faulted := s.faulted
    draws := s.draws
    script := s.script }

end Sys2Proof.Machine
end

