-- ==== Sys2Proof/Machine/Service.lean ====
section
/-! DEFINITION. The arbiter, the direction mux and the atomic counter (41_service.md). -/

namespace Sys2Proof.Machine

/-- The running service, if any, may be preempted by `x` (41_service.md R75). -/
def State.mayEnter (s : State) (x : Src) : Bool :=
  match s.top with
  | none => true
  | some y => decide (s.pre x < s.pre y)

/-- `eligible(X)` (41_service.md R75). -/
def State.eligible (s : State) (x : Src) : Bool :=
  s.pend.get x && s.en.get x && decide (s.phase.get x = .idle) && s.mayEnter x

/-- The source a GRANT takes: the eligible source with the smallest key (41_service.md R76, R77). -/
def State.grantee (s : State) : Option Src :=
  match s.eligible .a, s.eligible .b with
  | true, true => if keyLt (s.key .a) (s.key .b) then some .a else some .b
  | true, false => some .a
  | false, true => some .b
  | false, false => none

/-- GRANT (41_service.md R76); stuck when no source is eligible. -/
def grantStep (s : State) : Host.Outcome State Fault Refusal :=
  match s.grantee with
  | some x => .next (enterService x s)
  | none => .fault .grantNotEnabled

/-- The direction mux (41_service.md R81): a nonzero delta needs both lines low. -/
def muxDelta (x : Src) (lvlA lvlB : Bool) : Delta :=
  match x, lvlA, lvlB with
  | .a, false, false => .plus
  | .b, false, false => .minus
  | _, _, _ => .zero

/-- SAMPLE's effect: both levels read at this one step, line A first (41_service.md R79, R80; the
order matters to no claim, notes/assumptions/12.md). -/
def takeSample (x : Src) (s : State) : State :=
  let ra := readLevel .a s
  let rb := readLevel .b ra.2
  { rb.2 with
    delta := rb.2.delta.set x (muxDelta x ra.1 rb.1)
    phase := rb.2.phase.set x .sampled }

/-- SAMPLE_X is enabled (41_service.md R78 to R80). -/
def State.maySample (s : State) (x : Src) : Bool :=
  decide (s.top = some x) && decide (s.phase.get x = .granted)

/-- SAMPLE_X (41_service.md R79, R80); stuck when not enabled. -/
def sampleStep (x : Src) (s : State) : Host.Outcome State Fault Refusal :=
  if s.maySample x then .next (takeSample x s) else .fault (.sampleNotEnabled x)

/-- The atomic add to COUNT (41_service.md R82). -/
def addDelta (x : Src) (s : State) : State :=
  { s with count := addCount s.params s.count (s.delta.get x).toInt }

/-- COMMIT_X is enabled (41_service.md R78, R82). -/
def State.mayCommit (s : State) (x : Src) : Bool :=
  decide (s.top = some x) && decide (s.phase.get x = .sampled)

/-- COMMIT_X (41_service.md R82); stuck when not enabled. -/
def commitStep (x : Src) (s : State) : Host.Outcome State Fault Refusal :=
  if s.mayCommit x then .next (leaveService x (addDelta x s)) else .fault (.commitNotEnabled x)

end Sys2Proof.Machine
end

