-- ==== Sys2Proof/Machine/Schedule.lean ====
section
/-! DEFINITION. Which step comes next: the script's next line, or, once it has ended, an internal
step (30_encoding.md R66; 70_reset_and_hazards.md R129). -/

namespace Sys2Proof.Machine

/-- The step is the block's own: a GRANT, SAMPLE or COMMIT (70_reset_and_hazards.md R129). -/
def Event.isInternal : Event → Bool
  | .grant => true
  | .sample _ => true
  | .commit _ => true
  | .drive _ _ => false
  | .host _ => false
  | .reset => false

/-- The step of the channel on top (41_service.md R78): SAMPLE when granted, COMMIT when sampled. -/
def State.channelStep (s : State) : Option Event :=
  match s.top with
  | none => none
  | some x =>
    match s.phase.get x with
    | .idle => none
    | .granted => some (.sample x)
    | .sampled => some (.commit x)

/-- The internal step that comes next once no line is left (70_reset_and_hazards.md R129): GRANT, or
the top channel's step. Where both are enabled the spec gives no order and a free value decides.
DESIGN CHOICE (safe), notes/assumptions/2.md. -/
def State.internalChoice (s : State) : Option (Event × State) :=
  match s.grantee, s.channelStep with
  | none, none => none
  | some _, none => some (.grant, s)
  | none, some e => some (e, s)
  | some _, some e =>
    let d := drawBit s
    some (if d.1 then .grant else e, d.2)

/-- The agent step that comes next and the state it is taken from: the script's first line, used up
by its own step, or an internal step. -/
def State.chosen (s : State) : Option (Event × State) :=
  match s.script with
  | e :: rest => some (e, { s with script := rest })
  | [] => s.internalChoice

/-- The three lines that `service X` abbreviates (30_encoding.md R66). -/
def serviceLines (x : Src) : List Event := [.grant, .sample x, .commit x]

end Sys2Proof.Machine
end

