-- ==== Sys2Proof/Machine/Agents.lean ====
section
/-! DEFINITION. One atomic step of one agent (00_scope.md R14, R15), and the step the machine takes
next. -/

namespace Sys2Proof.Machine

/-- A HOST step presents `w`: the command it encodes, or an illegal word (42_host_commands.md R86). -/
def hostStep (w : CmdWord) (s : State) : Host.Outcome State Fault Refusal :=
  match decode w with
  | .ok i => exec i s
  | .error _ => illegalCommand s

/-- The step `e` names, taken from `s` (30_encoding.md R66). -/
def agentStep (e : Event) (s : State) : Host.Outcome State Fault Refusal :=
  match e with
  | .drive l v => .next (driveLine l v s)
  | .grant => grantStep s
  | .sample x => sampleStep x s
  | .commit x => commitStep x s
  | .host w => hostStep w s
  | .reset => .next (resetBlock s)

/-- The step that comes next; a quiescent block with no line left has none. -/
def chosenStep (s : State) : Host.Outcome State Fault Refusal :=
  match s.chosen with
  | some c => agentStep c.1 c.2
  | none => .fault .quiescent

end Sys2Proof.Machine
end

