-- ==== Sys2Proof/Machine/Step.lean ====
section
/-! DEFINITION. One step of the machine, and placing a command as its next line. -/

namespace Sys2Proof.Machine

/-- One atomic step of one agent (00_scope.md R15). -/
def step (s : State) : Host.Outcome State Fault Refusal :=
  chosenStep s

/-- `s` with the table's word as the line the next step takes: HOST presents it
(notes/assumptions/8.md). -/
def State.withFetchWord (s : State) (nbits w : Nat) : State :=
  { s with script := .host (tableWord nbits w) :: s.script }

end Sys2Proof.Machine
end

