-- ==== Sys2Proof/AsmSyntax.lean ====
section
/-! DEFINITION. The abstract form of an assembler line (30_encoding.md R64, R65), before its
operands are checked. -/

namespace Sys2Proof

/-- A priority operand as written: a number, or a pair `pre.sub` (30_encoding.md R64). -/
inductive PrioArg where
  | num (n : Nat)
  | pair (pre sub : Nat)
deriving DecidableEq, Repr

/-- A command line: the five commands (30_encoding.md R64) and the six pseudo-instructions (R65). -/
inductive AsmLine where
  | nop
  | init (pa pb : PrioArg)
  | take
  | seten (m : Nat)
  | stat
  | mask
  | unmask
  | initdef
  | initbpref
  | initnest
  | takedelta
deriving DecidableEq, Repr

end Sys2Proof
end

