-- ==== Sys2Proof/WellFormed.lean ====
section
/-! DEFINITION. Well-formedness. A command's operands have their field's width by type, so every
`Instr` is well-formed; what can be ill-formed is a command word (a reserved opcode or a nonzero
reserved bit, 30_encoding.md R59, R60) and an assembler line (an operand out of range, R64). -/

namespace Sys2Proof

/-- Each operand fits its field of 30_encoding.md R55. -/
def Instr.wf : Instr → Bool
  | .nop => true
  | .init pa pb => decide (pa.toNat < 16) && decide (pb.toNat < 16)
  | .take => true
  | .seten _ _ => true
  | .stat => true

/-- A command word is well-formed when its opcode is not reserved (30_encoding.md R59) and every
field that R55 shows as 0 or RSV is zero (R60). -/
def CmdWord.wf (w : CmdWord) : Bool :=
  !opReserved w && reservedFieldsZero w

/-- A priority operand is a number 0 to 15, or `pre.sub` with both in 0 to 3 (30_encoding.md R64). -/
def PrioArg.wf : PrioArg → Bool
  | .num n => decide (n ≤ 15)
  | .pair pre sub => decide (pre ≤ 3) && decide (sub ≤ 3)

/-- "An operand out of range is an assembly error, not a command" (30_encoding.md R64). -/
def AsmLine.wf : AsmLine → Bool
  | .nop => true
  | .init pa pb => pa.wf && pb.wf
  | .take => true
  | .seten m => decide (m ≤ 3)
  | .stat => true
  | .mask => true
  | .unmask => true
  | .initdef => true
  | .initbpref => true
  | .initnest => true
  | .takedelta => true

end Sys2Proof
end

