-- ==== Sys2Proof/Machine/Asm.lean ====
section
/-! DEFINITION. The assembler and the stimulus notation (30_encoding.md R64 to R66): the word of a
command line, the expansion of a pseudo-instruction, and the lines of a test program as text. -/

namespace Sys2Proof.Machine

/-- The value of a priority operand; a pair `pre.sub` means `pre*4 + sub` (30_encoding.md R64). -/
def prioValue : PrioArg → Nat
  | .num n => n
  | .pair pre sub => pre * 4 + sub

/-- The expansion of a pseudo-instruction (30_encoding.md R65); other lines stand for themselves. -/
def expandLine : AsmLine → AsmLine
  | .mask => .seten 0
  | .unmask => .seten 3
  | .initdef => .init (.pair 0 0) (.pair 0 1)
  | .initbpref => .init (.pair 0 1) (.pair 0 0)
  | .initnest => .init (.pair 0 0) (.pair 1 0)
  | .takedelta => .take
  | .nop => .nop
  | .init pa pb => .init pa pb
  | .take => .take
  | .seten m => .seten m
  | .stat => .stat

/-- The word of a line: the formulas of 30_encoding.md R64 for the commands, the word column of R65 for
the pseudo-instructions. -/
def lineWord : AsmLine → CmdWord
  | .nop => 0x0000#16
  | .init pa pb =>
    0x1000#16 ||| (BitVec.ofNat 16 (prioValue pb) <<< 4) ||| BitVec.ofNat 16 (prioValue pa)
  | .take => 0x2000#16
  | .seten m => 0x3000#16 ||| BitVec.ofNat 16 m
  | .stat => 0x4000#16
  | .mask => 0x3000#16
  | .unmask => 0x3003#16
  | .initdef => 0x1010#16
  | .initbpref => 0x1001#16
  | .initnest => 0x1040#16
  | .takedelta => 0x2000#16

/-- The command a line stands for (30_encoding.md R64, R65). -/
def lineInstr (l : AsmLine) : Instr :=
  match expandLine l with
  | .init pa pb => .init (BitVec.ofNat 4 (prioValue pa)) (BitVec.ofNat 4 (prioValue pb))
  | .take => .take
  | .seten m => .seten (m.testBit 0) (m.testBit 1)
  | .stat => .stat
  | .nop => .nop
  | .mask => .seten false false
  | .unmask => .seten true true
  | .initdef => .init 0x0#4 0x1#4
  | .initbpref => .init 0x1#4 0x0#4
  | .initnest => .init 0x0#4 0x4#4
  | .takedelta => .take

/-- The command word of a line; an operand out of range is an assembly error (30_encoding.md R64). -/
def assemble (l : AsmLine) : Option CmdWord :=
  if l.wf then some (lineWord l) else none

/-! The text form. What 30_encoding.md R64 and R66 leave open (blanks between tokens, names in the
letters printed, either case for hexadecimal digits, leading zeros, hexadecimal numbers in a pair,
comments on stimulus lines, a line with nothing on it) is a DESIGN CHOICE (safe),
notes/assumptions/16.md. -/

/-- A line without its comment: `;` starts one (30_encoding.md R64). -/
def stripComment (cs : List Char) : List Char := cs.takeWhile (fun c => c != ';')

/-- A token gathered in reverse, put before the tokens that follow. -/
def flushToken (cur : List Char) (rest : List (List Char)) : List (List Char) :=
  match cur with
  | [] => rest
  | c :: cs => (c :: cs).reverse :: rest

/-- Tokens: blanks separate them and a comma is one by itself. -/
def tokensFrom (cur : List Char) : List Char → List (List Char)
  | [] => flushToken cur []
  | c :: cs =>
    if c == ' ' || c == '\t' then flushToken cur (tokensFrom [] cs)
    else if c == ',' then flushToken cur ([','] :: tokensFrom [] cs)
    else tokensFrom (c :: cur) cs

/-- A digit's value in a base up to 16. -/
def digitValue (base : Nat) (c : Char) : Option Nat :=
  let n := c.toNat
  let v :=
    if 48 ≤ n ∧ n ≤ 57 then n - 48
    else if 65 ≤ n ∧ n ≤ 70 then n - 55
    else if 97 ≤ n ∧ n ≤ 102 then n - 87
    else base
  if v < base then some v else none

/-- Digits in a base, most significant first, after a value already read. -/
def digitsFrom (base acc : Nat) : List Char → Option Nat
  | [] => some acc
  | c :: cs =>
    match digitValue base c with
    | some v => digitsFrom base (acc * base + v) cs
    | none => none

/-- A number, decimal or `0x` hexadecimal (30_encoding.md R64). -/
def parseNumber : List Char → Option Nat
  | '0' :: 'x' :: c :: cs => digitsFrom 16 0 (c :: cs)
  | c :: cs => digitsFrom 10 0 (c :: cs)
  | [] => none

/-- A priority operand, a number or `pre.sub` (30_encoding.md R64). -/
def parsePrio (t : List Char) : Option PrioArg :=
  match t.dropWhile (fun c => c != '.') with
  | [] => (parseNumber t).map .num
  | _ :: sub =>
    match parseNumber (t.takeWhile (fun c => c != '.')), parseNumber sub with
    | some p, some q => some (.pair p q)
    | _, _ => none

/-- A name without operands (30_encoding.md R64, R65). -/
def parseName (t : List Char) : Option AsmLine :=
  if t = ['N', 'O', 'P'] then some .nop
  else if t = ['T', 'A', 'K', 'E'] then some .take
  else if t = ['S', 'T', 'A', 'T'] then some .stat
  else if t = ['M', 'A', 'S', 'K'] then some .mask
  else if t = ['U', 'N', 'M', 'A', 'S', 'K'] then some .unmask
  else if t = ['I', 'N', 'I', 'T', 'D', 'E', 'F'] then some .initdef
  else if t = ['I', 'N', 'I', 'T', 'B', 'P', 'R', 'E', 'F'] then some .initbpref
  else if t = ['I', 'N', 'I', 'T', 'N', 'E', 'S', 'T'] then some .initnest
  else if t = ['T', 'A', 'K', 'E', 'D', 'E', 'L', 'T', 'A'] then some .takedelta
  else none

/-- A command line's tokens (30_encoding.md R64, R65). -/
def parseCommand : List (List Char) → Option AsmLine
  | [t] => parseName t
  | [t, m] => if t = ['S', 'E', 'T', 'E', 'N'] then (parseNumber m).map .seten else none
  | [t, pa, comma, pb] =>
    if t = ['I', 'N', 'I', 'T'] ∧ comma = [','] then
      match parsePrio pa, parsePrio pb with
      | some p, some q => some (.init p q)
      | _, _ => none
    else none
  | _ => none

/-- A line's or channel's name (30_encoding.md R66). -/
def parseSrc (t : List Char) : Option Src :=
  if t = ['A'] then some .a else if t = ['B'] then some .b else none

/-- A drive (30_encoding.md R66). -/
def parseDrive (t : List Char) : Option Drive :=
  if t = ['0'] then some .low
  else if t = ['1'] then some .high
  else if t = ['Z'] then some .z
  else none

/-- A stimulus line's tokens, `service X` being its three lines (30_encoding.md R66). -/
def parseStimulus : List (List Char) → Option (List Event)
  | [t] =>
    if t = ['G', 'R', 'A', 'N', 'T'] then some [.grant]
    else if t = ['R', 'E', 'S', 'E', 'T'] then some [.reset]
    else none
  | [t, x] =>
    if t = ['S', 'A', 'M', 'P', 'L', 'E'] then (parseSrc x).map (fun x => [.sample x])
    else if t = ['C', 'O', 'M', 'M', 'I', 'T'] then (parseSrc x).map (fun x => [.commit x])
    else if t = ['s', 'e', 'r', 'v', 'i', 'c', 'e'] then (parseSrc x).map serviceLines
    else none
  | [t, l, v] =>
    if t = ['D', 'R', 'I', 'V', 'E'] then
      match parseSrc l, parseDrive v with
      | some l, some v => some [.drive l v]
      | _, _ => none
    else none
  | _ => none

/-- One line of a test program: a stimulus line or a command (30_encoding.md R64 to R66). A line that is
empty, blank or only a comment is no step and no error: R64 does not say what it is, and that is a
DESIGN CHOICE (safe), notes/assumptions/16.md. -/
def parseLine (cs : List Char) : Option (List Event) :=
  match tokensFrom [] (stripComment cs) with
  | [] => some []
  | t :: ts =>
    match parseStimulus (t :: ts) with
    | some es => some es
    | none =>
      match parseCommand (t :: ts) with
      | some l => (assemble l).map (fun w => [.host w])
      | none => none

/-- A test program, "a list of these lines and host commands, in the order the steps occur"
(30_encoding.md R66). -/
def parseProgram : List (List Char) → Option (List Event)
  | [] => some []
  | l :: ls =>
    match parseLine l, parseProgram ls with
    | some es, some rest => some (es ++ rest)
    | _, _ => none

end Sys2Proof.Machine
end

