-- ==== Sys2Proof/Machine/Runs.lean ====
section
/-! DEFINITION. Infinite runs and weak fairness (00_scope.md R15; 41_service.md R85). A run takes the
agents' steps in any order, ENV and HOST unendingly if they will; a scripted run of `step` is a finite
part of one. The form is a DESIGN CHOICE (safe), notes/assumptions/14.md. -/

namespace Sys2Proof.Machine

/-- The step `e` is enabled in `s`: it goes on (00_scope.md R15, R16). -/
def State.enables (s : State) (e : Event) : Bool :=
  match agentStep e s with
  | .next _ => true
  | .fault _ => false
  | .refused _ => false

/-- An infinite run: `σ n` is the state at instant `n`, and `ε n` the one step taken there, by any
agent for which it is enabled, or `none` where no agent steps (00_scope.md R15). -/
def IsRun (σ : Nat → State) (ε : Nat → Option Event) : Prop :=
  ∀ n, match ε n with
    | some e => agentStep e (σ n) = .next (σ (n + 1))
    | none => σ (n + 1) = σ n

/-- Weak fairness (41_service.md R85): of GRANT and of each channel's SAMPLE and COMMIT, "a step that
stays enabled is eventually taken". ENV, HOST and RESET have no obligation. -/
def WeaklyFair (σ : Nat → State) (ε : Nat → Option Event) : Prop :=
  ∀ e : Event, e.isInternal = true → ∀ n, (∀ m, n ≤ m → (σ m).enables e = true) →
    ∃ m, n ≤ m ∧ ε m = some e

/-- The steps of the first `k` instants, as the lines of a script (30_encoding.md R66). -/
def linesOf (ε : Nat → Option Event) : Nat → List Event
  | 0 => []
  | k + 1 => linesOf ε k ++ (ε k).toList

end Sys2Proof.Machine
end

