-- ==== Sys2Proof/Safety.lean ====
section
/-! DEFINITION. The terms claims are stated in: the invariant, quiescence and good final states, what
a level read may answer, which agent step comes next, and sums over a run. -/

namespace Sys2Proof.Machine

/-- The invariant of the reachable states. -/
structure State.Inv (s : State) : Prop where
  /-- `X` is in STACK if and only if `PHASE_X` is not IDLE (10_state.md R25 a). -/
  inService : ∀ x, x ∈ s.stack ↔ s.phase.get x ≠ .idle
  /-- STACK has no repeated element (10_state.md R25 b). -/
  noRepeat : s.stack.Nodup
  /-- The upper of two services has the strictly smaller `pre` (10_state.md R25 c; priorities change
  only while STACK is empty, 42_host_commands.md R88). -/
  nested : ∀ y x, s.stack = [y, x] → s.pre x < s.pre y
  /-- COUNT is a signed `COUNT_W`-bit integer (10_state.md R20). -/
  countRange : InSint s.countW s.count
  /-- RDATA is a `COUNT_W`-bit word (10_state.md R32). -/
  rdataRange : s.rdata < 2 ^ s.countW
  /-- Before INIT nothing is pending, in service or counted (70_reset_and_hazards.md R116). -/
  unarmed : s.armed = false → s.pend = ⟨false, false⟩ ∧ s.stack = [] ∧ s.count = 0
  /-- ERRCODE is 0 exactly while ERR is 0 (60_exceptions.md R98, R99). -/
  errCode : s.err = false ↔ s.errcode = .none
  /-- A recorded fault marks the run (60_exceptions.md R99). -/
  errMark : s.err = true → s.faulted = true

/-- No GRANT, SAMPLE or COMMIT is enabled (70_reset_and_hazards.md R129). -/
def State.Quiescent (s : State) : Prop :=
  s.stack = [] ∧ ∀ x, s.pend.get x = false ∨ s.en.get x = false

/-- A good final state of a run: no line left, quiescent, and no fault recorded
(70_reset_and_hazards.md R129; 60_exceptions.md R99). -/
def State.GoodFinal (s : State) : Prop :=
  s.script = [] ∧ s.Quiescent ∧ s.faulted = false

/-- `v` is a value `lvl(L)` may have (40_edge_detect.md R68): fixed for a driven line and for an
undriven one with the pull-up on, free for a floating line. -/
def LevelAgrees (s : State) (l : Src) (v : Bool) : Prop :=
  (s.drv.get l = .low → v = false) ∧ (s.drv.get l = .high → v = true) ∧
    (s.drv.get l = .z → s.armed = true → v = true)

/-- How many draws one read of a line with drive `d` makes: one when it floats, undriven with the
pull-up off (40_edge_detect.md R68). -/
def State.readDraws (s : State) (d : Drive) : Nat :=
  if d = .z ∧ s.armed = false then 1 else 0

/-- How many draws choosing the next step makes: one where no line is left and both a GRANT and the top
channel's step are enabled (notes/assumptions/2.md). -/
def State.choiceDraws (s : State) : Nat :=
  if s.script = [] ∧ s.grantee ≠ none ∧ s.channelStep ≠ none then 1 else 0

/-- The agent step that comes next, if there is one. -/
def State.nextEvent (s : State) : Option Event := s.chosen.map Prod.fst

/-- The step is a HOST step whose word is TAKE. -/
def Event.isTake : Event → Bool
  | .host w => decide (decode w = .ok .take)
  | _ => false

/-- The step is a COMMIT. -/
def Event.isCommit : Event → Bool
  | .commit _ => true
  | _ => false

/-- The step is a RESET. -/
def Event.isReset : Event → Bool
  | .reset => true
  | _ => false

/-- The step is a HOST step. -/
def Event.isHost : Event → Bool
  | .host _ => true
  | _ => false

/-- The step that comes next has the property. -/
def State.nextIs (p : Event → Bool) (s : State) : Bool :=
  match s.nextEvent with
  | some e => p e
  | none => false

/-- The delta that the next step adds to COUNT: a COMMIT's `DELTA_X`, otherwise none. -/
def State.committing (s : State) : Int :=
  match s.nextEvent with
  | some (.commit x) => (s.delta.get x).toInt
  | _ => 0

/-- What the next step returns to the host as a count: for a TAKE the integer that RDATA denotes
after it, otherwise none. -/
def State.taking (s : State) : Int :=
  if s.nextIs Event.isTake then
    match step s with
    | .next t => sintN t.countW t.rdata
    | .fault _ => 0
    | .refused _ => 0
  else 0

/-- The sum of `f` over the states from which the first `k` steps of the run are taken. -/
def runSum (f : State → Int) : Nat → State → Int
  | 0, _ => 0
  | k + 1, s =>
    f s + match step s with
      | .next t => runSum f k t
      | .fault _ => 0
      | .refused _ => 0

/-- None of the first `k` steps of the run has the property. -/
def runAvoids (p : Event → Bool) : Nat → State → Bool
  | 0, _ => true
  | k + 1, s =>
    !s.nextIs p && match step s with
      | .next t => runAvoids p k t
      | .fault _ => true
      | .refused _ => true

end Sys2Proof.Machine
end

