-- ==== Sys2Proof/Certificates/Slice0/Obligations.lean ====
section
/-! DEFINITION. The statements for the provers, from the numbered rules of spec/ file by file. A run of
`k` steps is `Host.Core.run Sys2Proof.core k`. -/

open Sys2Proof Sys2Proof.Machine

/-! ### Encoding (30_encoding.md) -/

/-- Words of spec/95_test_vectors.md section 2.5 decode to the commands they are written for, and the
illegal ones to none. -/
def Obligations.DecodeSampleWords : Prop :=
  decode 0x0000#16 = .ok .nop ∧ decode 0x1010#16 = .ok (.init 0x0#4 0x1#4) ∧
  decode 0x1040#16 = .ok (.init 0x0#4 0x4#4) ∧ decode 0x2000#16 = .ok .take ∧
  decode 0x3001#16 = .ok (.seten true false) ∧ decode 0x3003#16 = .ok (.seten true true) ∧
  decode 0x4000#16 = .ok .stat ∧ decode 0x1100#16 = .error .reservedBits ∧
  decode 0x3004#16 = .error .reservedBits ∧ decode 0x5000#16 = .error .reservedOpcode

/-- 30_encoding.md R58: each row's command is exactly the words with `(w & mask) = match`, no word
matches two rows, and a word no row matches is illegal. -/
def Obligations.OpcodeMapExact : Prop :=
  ∀ w : CmdWord,
    (decode w = .ok .nop ↔ w &&& 0xFFFF#16 = 0x0000#16) ∧
    ((∃ pa pb, decode w = .ok (.init pa pb)) ↔ w &&& 0xFF00#16 = 0x1000#16) ∧
    (decode w = .ok .take ↔ w &&& 0xFFFF#16 = 0x2000#16) ∧
    ((∃ ea eb, decode w = .ok (.seten ea eb)) ↔ w &&& 0xFFFC#16 = 0x3000#16) ∧
    (decode w = .ok .stat ↔ w &&& 0xFFFF#16 = 0x4000#16) ∧
    (∀ r ∈ opcodeRows, ∀ q ∈ opcodeRows, r.hit w = true → q.hit w = true → r = q) ∧
    ((∃ e, decode w = .error e) ↔ ∀ r ∈ opcodeRows, r.hit w = false)

/-- 30_encoding.md R55: where each operand stands, and that every field shown as 0 or RSV is 0. -/
def Obligations.OperandFieldLayout : Prop :=
  ∀ (w : CmdWord) (i : Instr), decode w = .ok i →
    match i with
    | .nop => w.extractLsb 11 0 = 0#12
    | .init pa pb =>
      pa = w.extractLsb 3 0 ∧ pb = w.extractLsb 7 4 ∧ w.extractLsb 11 8 = 0#4
    | .take => w.extractLsb 11 0 = 0#12
    | .seten ea eb => ea = w.getLsbD 0 ∧ eb = w.getLsbD 1 ∧ w.extractLsb 11 2 = 0#10
    | .stat => w.extractLsb 11 0 = 0#12

/-- Decoding an encoded command gives it back, whatever its operands. -/
def Obligations.DecodeOfEncode : Prop :=
  ∀ i : Instr, i.wf = true → decode (encode i) = .ok i

/-- Every legal word is the encoding of the command it decodes to: one word, one meaning. -/
def Obligations.EncodeOfDecode : Prop :=
  ∀ (w : CmdWord) (i : Instr), decode w = .ok i → encode i = w ∧ CmdWord.wf w = true

/-- 30_encoding.md R59, R60 and 42_host_commands.md R97: exactly which words are illegal, and that
presenting one faults with ILLEGAL_CMD and changes nothing else, in every state. -/
def Obligations.IllegalWordFaults : Prop :=
  ∀ w : CmdWord,
    ((∃ e, decode w = .error e) ↔
      (5 ≤ (w.extractLsb 15 12).toNat ∨
        (w.extractLsb 15 12 = 0x0#4 ∧ w.extractLsb 11 0 ≠ 0#12) ∨
        (w.extractLsb 15 12 = 0x1#4 ∧ w.extractLsb 11 8 ≠ 0#4) ∨
        (w.extractLsb 15 12 = 0x2#4 ∧ w.extractLsb 11 0 ≠ 0#12) ∨
        (w.extractLsb 15 12 = 0x3#4 ∧ w.extractLsb 11 2 ≠ 0#10) ∨
        (w.extractLsb 15 12 = 0x4#4 ∧ w.extractLsb 11 0 ≠ 0#12))) ∧
    ∀ (e : DecodeError) (s : State) (rest : List Event), decode w = .error e →
      s.script = .host w :: rest →
        step s = .next { s with
          script := rest
          err := true
          errcode := if s.err then s.errcode else .illegalCmd
          rdata := 0
          faulted := true }

/-- 30_encoding.md section 5: a line with operands in range assembles to a word that decodes to the
line's command, and one out of range is an assembly error. -/
def Obligations.AssemblerWords : Prop :=
  ∀ l : AsmLine,
    (l.wf = true → ∃ w, assemble l = some w ∧ decode w = .ok (lineInstr l)) ∧
    (l.wf = false → assemble l = none)

/-- 30_encoding.md R65: each pseudo-instruction's expansion and word. -/
def Obligations.PseudoInstructionWords : Prop :=
  (assemble .mask = some 0x3000#16 ∧ assemble (.seten 0) = some 0x3000#16) ∧
  (assemble .unmask = some 0x3003#16 ∧ assemble (.seten 3) = some 0x3003#16) ∧
  (assemble .initdef = some 0x1010#16 ∧
    assemble (.init (.pair 0 0) (.pair 0 1)) = some 0x1010#16) ∧
  (assemble .initbpref = some 0x1001#16 ∧
    assemble (.init (.pair 0 1) (.pair 0 0)) = some 0x1001#16) ∧
  (assemble .initnest = some 0x1040#16 ∧
    assemble (.init (.pair 0 0) (.pair 1 0)) = some 0x1040#16) ∧
  (assemble .takedelta = some 0x2000#16 ∧ assemble .take = some 0x2000#16)

/-! ### The step -/

/-- A step whose line presents a word that decodes runs that command, the line used up
(notes/assumptions/1.md, 8.md); so does the step after `withFetchWord`. -/
def Obligations.StepRunsDecodedCommand : Prop :=
  (∀ (s : State) (w : CmdWord) (rest : List Event) (i : Instr),
    s.script = .host w :: rest → decode w = .ok i → i.wf = true →
      step s = exec i { s with script := rest }) ∧
  (∀ (s : State) (nbits v : Nat) (i : Instr), decodeTableWord nbits v = some i →
    step (s.withFetchWord nbits v) = exec i s)

/-- 30_encoding.md R63: every command word, legal or not, is answered in its own step, with RDATA as the
rule says. -/
def Obligations.HostStepAlwaysAnswers : Prop :=
  ∀ (s : State) (w : CmdWord) (rest : List Event), s.script = .host w :: rest →
    ∃ t, step s = .next t ∧ t.script = rest ∧
      match decode w with
      | .ok .take => t.rdata = patternN s.countW s.count
      | .ok .stat => ∃ la lb, LevelAgrees s .a la ∧ LevelAgrees s .b lb ∧
          t.rdata = (statusView s la lb).toNat
      | .ok .nop => t.rdata = 0
      | .ok (.init _ _) => t.rdata = 0
      | .ok (.seten _ _) => t.rdata = 0
      | .error _ => t.rdata = 0

/-- "The block has no refusal of a well-encoded command" (00_scope.md section 4). -/
def Obligations.StepNeverRefuses : Prop :=
  ∀ (s : State) (r : Refusal), step s ≠ .refused r

/-- Which elements each agent's step may write, and that it writes no other (10_state.md section 7): of a
GRANT, those of the source that the arbiter takes. Of the model's own fields: the line is used up; draws
are counted for the reads of a floating line, one each, and for choosing between two enabled internal
steps, and nowhere else (`script`, `draws`, `params`: notes/assumptions/1.md, 2.md, 5.md, 6.md, 12.md).
What RESET leaves beyond 10_state.md section 6 is the model's (notes/assumptions/11.md). -/
def Obligations.WriteAccessByStep : Prop :=
  ∀ (s t : State) (e : Event), s.nextEvent = some e → step s = .next t →
    match e with
    | .drive l v =>
      t = { s with
        drv := s.drv.set l (t.drv.get l), pend := s.pend.set l (t.pend.get l)
        draws := s.draws + s.readDraws (s.drv.get l) + s.readDraws v, script := s.script.tail }
    | .grant => ∃ x, s.grantee = some x ∧
      t = { s with
        pend := s.pend.set x (t.pend.get x), phase := s.phase.set x (t.phase.get x)
        stack := t.stack, draws := s.draws + s.choiceDraws, script := s.script.tail }
    | .sample x =>
      t = { s with
        delta := s.delta.set x (t.delta.get x), phase := s.phase.set x (t.phase.get x)
        draws := s.draws + s.choiceDraws + s.readDraws s.drv.a + s.readDraws s.drv.b
        script := s.script.tail }
    | .commit x =>
      t = { s with
        count := t.count, phase := s.phase.set x (t.phase.get x), stack := t.stack
        draws := s.draws + s.choiceDraws, script := s.script.tail }
    | .host w =>
      match decode w with
      | .ok .nop => t = { s with rdata := t.rdata, script := s.script.tail }
      | .ok (.init _ _) =>
        t = { s with
          armed := t.armed, en := t.en, prio := t.prio, rdata := t.rdata
          script := s.script.tail } ∨
        t = { s with
          err := t.err, errcode := t.errcode, faulted := t.faulted, rdata := t.rdata
          script := s.script.tail }
      | .ok .take => t = { s with count := t.count, rdata := t.rdata, script := s.script.tail }
      | .ok (.seten _ _) => t = { s with en := t.en, rdata := t.rdata, script := s.script.tail }
      | .ok .stat =>
        t = { s with
          rdata := t.rdata, draws := s.draws + s.readDraws s.drv.a + s.readDraws s.drv.b
          script := s.script.tail }
      | .error _ =>
        t = { s with
          err := t.err, errcode := t.errcode, faulted := t.faulted, rdata := t.rdata
          script := s.script.tail }
    | .reset =>
      t.params = s.params ∧ t.drv = s.drv ∧ t.faulted = s.faulted ∧ t.draws = s.draws ∧
        t.script = s.script.tail

/-- A line whose step is not enabled is no step of the spec (00_scope.md section 4, "stuck"): the
machine stops under that step's name. That a stop is a named `Fault` is the model's choice
(notes/assumptions/3.md). -/
def Obligations.DisabledLinesStop : Prop :=
  ∀ (s : State) (rest : List Event) (x : Src),
    (s.script = .grant :: rest → (∀ y, s.eligible y = false) →
      step s = .fault .grantNotEnabled) ∧
    (s.script = .sample x :: rest → ¬ (s.stack.getLast? = some x ∧ s.phase.get x = .granted) →
      step s = .fault (.sampleNotEnabled x)) ∧
    (s.script = .commit x :: rest → ¬ (s.stack.getLast? = some x ∧ s.phase.get x = .sampled) →
      step s = .fault (.commitNotEnabled x))

/-! ### Host commands (42_host_commands.md) -/

/-- 42_host_commands.md R87: NOP is the word 0x0000 exactly; it writes RDATA and nothing else. -/
def Obligations.NopOnlyResponds : Prop :=
  (∀ s : State, exec .nop s = .next { s with rdata := 0 }) ∧
  (∀ w : CmdWord, decode w = .ok .nop ↔ w = 0x0000#16) ∧
  (∀ w : CmdWord, 1 ≤ w.toNat → w.toNat ≤ 0x0FFF → ∃ e, decode w = .error e)

/-- 42_host_commands.md R88: INIT's encoding, its effect on an idle block, its two faults, and that
repeating it leaves the same state. -/
def Obligations.InitArmsIdleBlock : Prop :=
  (∀ (s : State) (pa pb : BitVec 4), s.stack = [] →
    exec (.init pa pb) s =
      .next { s with armed := true, prio := ⟨pa, pb⟩, en := ⟨true, true⟩, rdata := 0 }) ∧
  (∀ (s : State) (pa pb : BitVec 4), s.stack ≠ [] →
    exec (.init pa pb) s =
      .next { s with
        err := true, errcode := if s.err then s.errcode else .initActive
        rdata := 0, faulted := true }) ∧
  (∀ pa pb : BitVec 4,
    decode (0x1000#16 ||| (pb.setWidth 16 <<< 4) ||| pa.setWidth 16) = .ok (.init pa pb)) ∧
  (∀ w : CmdWord, w.extractLsb 15 12 = 0x1#4 → w.extractLsb 11 8 ≠ 0#4 →
    ∃ e, decode w = .error e) ∧
  (∀ (s t : State) (pa pb : BitVec 4), s.stack = [] → exec (.init pa pb) s = .next t →
    exec (.init pa pb) t = .next t)

/-- 42_host_commands.md R89: INIT is accepted only when STACK is empty, pending edges or not;
otherwise it changes nothing but ERR, ERRCODE, RDATA (and the run's mark, 60_exceptions.md R99). -/
def Obligations.InitFaultsDuringService : Prop :=
  ∀ (s : State) (pa pb : BitVec 4),
    (s.stack ≠ [] →
      exec (.init pa pb) s =
        .next { s with
          err := true, errcode := if s.err then s.errcode else .initActive
          rdata := 0, faulted := true }) ∧
    (s.stack = [] → ∃ t, exec (.init pa pb) s = .next t ∧
      t.armed = true ∧ t.err = s.err ∧ t.errcode = s.errcode ∧ t.faulted = s.faulted ∧
      t.pend = s.pend)

/-- 42_host_commands.md R90: TAKE is 0x2000 exactly, responds with COUNT's pattern and zeroes COUNT in
the same step; what it returns reads back as COUNT; a second TAKE returns 0; -1 is returned as all
ones and the least count as the sign bit alone; before INIT it returns 0; a delta sampled and not
committed is missed by this TAKE and returned by the next. -/
def Obligations.TakeReturnsAndZeroes : Prop :=
  (∀ s : State, exec .take s = .next { s with rdata := patternN s.countW s.count, count := 0 }) ∧
  (∀ w : CmdWord, decode w = .ok .take ↔ w = 0x2000#16) ∧
  (∀ s : State, InSint s.countW s.count → sintN s.countW (patternN s.countW s.count) = s.count) ∧
  (∀ s t : State, exec .take s = .next t → exec .take t = .next { t with rdata := 0 }) ∧
  (∀ n : Nat, 0 < n → patternN n (-1) = 2 ^ n - 1 ∧ patternN n (-(2 ^ (n - 1))) = 2 ^ (n - 1)) ∧
  (∀ s : State, s.Inv → s.armed = false → exec .take s = .next { s with rdata := 0 }) ∧
  (∀ (s t : State) (x : Src) (rest : List Event), s.stack.getLast? = some x →
    s.phase.get x = .sampled →
    s.script = .host 0x2000#16 :: .commit x :: .host 0x2000#16 :: rest →
    Host.Core.run core 3 s = .next t →
      t.rdata = patternN s.countW (s.delta.get x).toInt ∧ t.count = 0)

/-- 42_host_commands.md R92 and 30_encoding.md R57: SETEN's encoding, its effect on the enables and on
nothing else, and that enabling a pending idle source that may enter makes it eligible at once. -/
def Obligations.SetenWritesEnables : Prop :=
  (∀ (s : State) (ea eb : Bool),
    exec (.seten ea eb) s = .next { s with en := ⟨ea, eb⟩, rdata := 0 }) ∧
  (∀ (w : CmdWord) (ea eb : Bool), decode w = .ok (.seten ea eb) ↔
    w = 0x3000#16 ||| ((BitVec.ofBool eb).setWidth 16 <<< 1) ||| (BitVec.ofBool ea).setWidth 16) ∧
  (∀ w : CmdWord, w.extractLsb 15 12 = 0x3#4 → w.extractLsb 11 2 ≠ 0#10 →
    ∃ e, decode w = .error e) ∧
  (∀ (s : State) (x : Src), s.pend.get x = true → s.phase.get x = .idle →
    (s.stack = [] ∨ ∃ y, s.stack.getLast? = some y ∧ s.pre x < s.pre y) →
    ∀ ea eb t, exec (.seten ea eb) s = .next t → (t.eligible x = true ↔ t.en.get x = true))

/-- 10_state.md R33 and 42_host_commands.md R94: STAT leaves RDATA with every bit as the table says
(the level bits those the lines may have at this step), and writes no other element. -/
def Obligations.StatReturnsStatusView : Prop :=
  ∀ s : State, ∃ (la lb : Bool) (r n : Nat),
    LevelAgrees s .a la ∧ LevelAgrees s .b lb ∧
    exec .stat s = .next { s with rdata := r, draws := n } ∧
    r.testBit 0 = s.pend.a ∧ r.testBit 1 = s.pend.b ∧
    r.testBit 2 = decide (s.phase.a ≠ .idle) ∧ r.testBit 3 = decide (s.phase.b ≠ .idle) ∧
    r.testBit 4 = la ∧ r.testBit 5 = lb ∧
    r.testBit 6 = s.armed ∧ r.testBit 7 = s.en.a ∧ r.testBit 8 = s.en.b ∧
    r.testBit 9 = s.err ∧
    r.testBit 10 = decide (s.errcode = .illegalCmd) ∧
    r.testBit 11 = decide (s.errcode = .initActive) ∧
    ∀ j, 12 ≤ j → r.testBit j = false

/-- STATUS shows nothing of COUNT, the priorities, the deltas or the order of STACK (10_state.md
section 5): STAT answers the same in two states that differ only there, given the same draws. Where a
line floats (ARMED = 0) this rests on the two states sharing the free value of the read
(notes/assumptions/6.md). -/
def Obligations.StatHidesCounter : Prop :=
  ∀ (s t t' : State) (c : Int) (p : Pair (BitVec 4)) (d : Pair Delta) (k : List Src),
    exec .stat s = .next t →
    exec .stat { s with count := c, prio := p, delta := d, stack := k } = .next t' →
      t'.rdata = t.rdata ∧ t' = { t with count := c, prio := p, delta := d, stack := k }

/-- "STAT has no side effect and is idempotent" (20_memory.md section 2): with the pull-up on, a
second STAT with nothing between answers the same and leaves the same state. -/
def Obligations.StatIsIdempotent : Prop :=
  ∀ (s t : State), s.armed = true → exec .stat s = .next t → exec .stat t = .next t

/-- No command reads COUNT without zeroing it, and none writes a chosen value to it (42_host_commands.md
section 2): whatever COUNT is, a command but TAKE does the same, given the same draws. For STAT on a
floating line this rests on the two states sharing the free value (notes/assumptions/6.md). -/
def Obligations.NoPlainCounterAccess : Prop :=
  ∀ (i : Instr) (s t : State) (c : Int), exec i s = .next t →
    (i = .take → t.count = 0) ∧
    (i ≠ .take → t.count = s.count ∧
      exec i { s with count := c } = .next { t with count := c })

/-- COUNT is read only by TAKE and COMMIT, and RESET and they alone write it (10_state.md section 1):
any other step does the same, COUNT apart, whatever COUNT is, given the same draws. For reads of a
floating line and for the choice between two internal steps this rests on the two states sharing the
free value (notes/assumptions/2.md, 6.md). -/
def Obligations.CountTouchedOnlyByCommitAndTake : Prop :=
  ∀ (s t : State) (c : Int), step s = .next t →
    s.nextIs Event.isCommit = false → s.nextIs Event.isTake = false →
    s.nextIs Event.isReset = false →
      t.count = s.count ∧ step { s with count := c } = .next { t with count := c }

/-- After an accepted INIT each source's level and sub-priority are its operand's upper and lower two
bits, unsigned (30_encoding.md section 2, 10_state.md section 3). -/
def Obligations.PriorityOperandsTakeEffect : Prop :=
  ∀ (s : State) (pa pb : BitVec 4), s.stack = [] →
    ∃ t, exec (.init pa pb) s = .next t ∧
      t.pre .a = pa.toNat / 4 ∧ t.sub .a = pa.toNat % 4 ∧
      t.pre .b = pb.toNat / 4 ∧ t.sub .b = pb.toNat % 4

/-! ### Edge detection (40_edge_detect.md) -/

/-- The read level of a line (40_edge_detect.md section 1): its drive, 1 for an undriven line with the
pull-up on, and for a floating line a fresh free value at each read, which is the model's form of
the draw (notes/assumptions/6.md). -/
def Obligations.ReadLevelOfLine : Prop :=
  ∀ (s : State) (l : Src),
    (s.drv.get l = .low → readLevel l s = (false, s)) ∧
    (s.drv.get l = .high → readLevel l s = (true, s)) ∧
    (s.drv.get l = .z → s.armed = true → readLevel l s = (true, s)) ∧
    (s.drv.get l = .z → s.armed = false →
      readLevel l s = (Config.freeBit s.draws, { s with draws := s.draws + 1 }))

/-- 40_edge_detect.md R69, R70: DRIVE is always enabled, sets the drive, and sets PEND exactly on a
1-to-0 change of the read level while ARMED; nothing else changes. While ARMED a level is 0 exactly
when the line is driven low. -/
def Obligations.DriveLatchesFallingEdge : Prop :=
  ∀ (s : State) (l : Src) (v : Drive) (rest : List Event), s.script = .drive l v :: rest →
    ∃ n, step s = .next { s with
      script := rest
      drv := s.drv.set l v
      pend := s.pend.set l
        (decide (s.pend.get l = true ∨ (s.armed = true ∧ s.drv.get l ≠ .low ∧ v = .low)))
      draws := n } ∧ (s.armed = true → n = s.draws)

/-- 40_edge_detect.md R72: detection is gated by ARMED alone. The enables change no latch and only hold
the grant; unarmed nothing is latched; INIT remembers no earlier edge. -/
def Obligations.DetectionGatedByArmedAlone : Prop :=
  (∀ (s t t' : State) (l : Src) (v : Drive) (rest : List Event) (en : Pair Bool),
    s.script = .drive l v :: rest → step s = .next t → step { s with en := en } = .next t' →
      t'.pend = t.pend) ∧
  (∀ (s : State) (x : Src), s.en.get x = false → s.eligible x = false) ∧
  (∀ (s t : State) (l : Src) (v : Drive) (rest : List Event), s.armed = false →
    s.script = .drive l v :: rest → step s = .next t → t.pend = s.pend) ∧
  (∀ (s t : State) (pa pb : BitVec 4), exec (.init pa pb) s = .next t → t.pend = s.pend)

/-- 40_edge_detect.md R71: an edge while PEND is 1 leaves it 1 and the GRANT that serves it leaves
nothing to serve; an edge after the GRANT sets PEND again, in service or not, and once the service
ends, over an idle block or over the service it preempted, the source is eligible for a later GRANT. -/
def Obligations.EdgesMergeWhilePending : Prop :=
  (∀ (s : State) (x : Src) (v : Drive) (rest : List Event), s.pend.get x = true →
    s.script = .drive x v :: rest → ∃ t, step s = .next t ∧ t.pend = s.pend) ∧
  (∀ (s : State) (x : Src), s.grantee = some x → s.nextEvent = some .grant →
    ∃ t, step s = .next t ∧ t.pend.get x = false ∧ t.eligible x = false) ∧
  (∀ (s : State) (x : Src) (rest : List Event), s.armed = true → s.drv.get x ≠ .low →
    s.script = .drive x .low :: rest →
      ∃ t, step s = .next t ∧ t.pend.get x = true ∧ t.phase = s.phase ∧ t.stack = s.stack) ∧
  (∀ (s : State) (x : Src), s.stack.getLast? = some x → (s.stack = [x] ∨ s.Inv) →
    s.phase.get x = .sampled → s.pend.get x = true → s.en.get x = true →
    s.nextEvent = some (.commit x) → ∃ t, step s = .next t ∧ t.eligible x = true)

/-! ### Service (41_service.md) -/

/-- 41_service.md R74: keys are ordered by `pre`, then `sub`, then A before B; only `pre` decides
preemption. -/
def Obligations.PriorityKeyOrder : Prop :=
  ∀ s : State,
    (∀ x, s.pre x = (s.prio.get x).toNat / 4 ∧ s.sub x = (s.prio.get x).toNat % 4) ∧
    (keyLt (s.key .a) (s.key .b) = true ↔
      s.pre .a < s.pre .b ∨ (s.pre .a = s.pre .b ∧ s.sub .a ≤ s.sub .b)) ∧
    (keyLt (s.key .b) (s.key .a) = true ↔
      s.pre .b < s.pre .a ∨ (s.pre .b = s.pre .a ∧ s.sub .b < s.sub .a)) ∧
    (∀ x y, s.stack.getLast? = some y → s.eligible x = true → s.pre x < s.pre y)

/-- 41_service.md R75. -/
def Obligations.EligibleExactlyWhen : Prop :=
  ∀ (s : State) (x : Src), s.eligible x = true ↔
    (s.pend.get x = true ∧ s.en.get x = true ∧ s.phase.get x = .idle ∧
      (s.stack = [] ∨ ∃ y, s.stack.getLast? = some y ∧ s.pre x < s.pre y))

/-- 41_service.md R76: GRANT is enabled exactly when some source is eligible; it acknowledges, marks
GRANTED and pushes the eligible source with the smallest key, and changes nothing else. So for a
GRANT line and for a GRANT taken once no line is left; the latter may have cost the draw of the choice
(notes/assumptions/2.md). -/
def Obligations.GrantTakesMostUrgent : Prop :=
  ∀ s : State, s.nextEvent = some .grant →
    ((∃ t, step s = .next t) ↔ ∃ x, s.eligible x = true) ∧
    ∀ z, s.eligible z = true →
      ∃ x, s.eligible x = true ∧
        (∀ y, s.eligible y = true → y ≠ x → keyLt (s.key x) (s.key y) = true) ∧
        step s = .next { s with
          script := s.script.tail
          pend := s.pend.set x false
          phase := s.phase.set x .granted
          stack := s.stack ++ [x]
          draws := s.draws + s.choiceDraws }

/-- 41_service.md R77: both eligible, the smaller key wins and the other stays pending; A with the
source's setting and on a full tie, B with `INIT 0.1, 0.0`. So with a line left or none. -/
def Obligations.SimultaneousPendOrder : Prop :=
  ∀ s : State, s.nextEvent = some .grant → s.eligible .a = true → s.eligible .b = true →
      ∃ (x : Src) (t : State), step s = .next t ∧ t.stack = s.stack ++ [x] ∧
        keyLt (s.key x) (s.key x.other) = true ∧
        t.pend.get x = false ∧ t.pend.get x.other = true ∧
        (s.prio = ⟨0x0#4, 0x1#4⟩ → x = .a) ∧ (s.prio.a = s.prio.b → x = .a) ∧
        (s.prio = ⟨0x1#4, 0x0#4⟩ → x = .b)

/-- Only the channel on top takes a step (41_service.md section 1): a SAMPLE or COMMIT goes on exactly
when its channel is on top in the phase before it. -/
def Obligations.OnlyTopChannelSteps : Prop :=
  ∀ (s : State) (x : Src),
    (s.nextEvent = some (.sample x) →
      ((∃ t, step s = .next t) ↔ (s.stack.getLast? = some x ∧ s.phase.get x = .granted))) ∧
    (s.nextEvent = some (.commit x) →
      ((∃ t, step s = .next t) ↔ (s.stack.getLast? = some x ∧ s.phase.get x = .sampled)))

/-- "With equal `pre` for A and B ... STACK never holds two entries" (41_service.md section 1). -/
def Obligations.EqualPreNeverNests : Prop :=
  ∀ s : State, s.Inv → s.pre .a = s.pre .b →
    s.stack.length ≤ 1 ∧ ∀ t, step s = .next t → t.pre .a = t.pre .b → t.stack.length ≤ 1

/-- 41_service.md R79, R80, R81: SAMPLE of the channel on top reads both levels at this step and stores
the delta of the table; with ARMED set (always so in service) the reads are no draws. So for a SAMPLE
line and for a SAMPLE taken once no line is left; the latter may have cost the draw of the choice
(notes/assumptions/2.md). -/
def Obligations.SampleComputesDelta : Prop :=
  ∀ (s : State) (x : Src), s.nextEvent = some (.sample x) →
    ((∃ t, step s = .next t) ↔ (s.stack.getLast? = some x ∧ s.phase.get x = .granted)) ∧
    (s.stack.getLast? = some x → s.phase.get x = .granted →
      ∃ (la lb : Bool) (d : Delta) (n : Nat),
        LevelAgrees s .a la ∧ LevelAgrees s .b lb ∧
        (x = .a → la = false → lb = false → d.toInt = 1) ∧
        (x = .b → la = false → lb = false → d.toInt = -1) ∧
        ((la = true ∨ lb = true) → d.toInt = 0) ∧
        step s = .next { s with
          script := s.script.tail
          delta := s.delta.set x d
          phase := s.phase.set x .sampled
          draws := s.draws + s.choiceDraws + n } ∧
        (s.Inv → s.armed = true ∧ n = 0))

/-- 41_service.md R82 and 00_scope.md R7: COMMIT of the channel on top adds its delta to COUNT, ends the
service and pops; outside the range the sum wraps or saturates by the policy, with no fault and no
flag. So for a COMMIT line and for a COMMIT taken once no line is left; the latter may have cost the
draw of the choice (notes/assumptions/2.md). -/
def Obligations.CommitAddsDelta : Prop :=
  ∀ (s : State) (x : Src), s.nextEvent = some (.commit x) →
    InSint s.countW s.count →
    ((∃ t, step s = .next t) ↔ (s.stack.getLast? = some x ∧ s.phase.get x = .sampled)) ∧
    (s.stack.getLast? = some x → s.phase.get x = .sampled →
      step s = .next { s with
        script := s.script.tail
        count :=
          if s.count + (s.delta.get x).toInt > 2 ^ (s.countW - 1) - 1 then
            (match s.params.ovf with
             | .wrap => s.count + (s.delta.get x).toInt - 2 ^ s.countW
             | .saturate => 2 ^ (s.countW - 1) - 1)
          else if s.count + (s.delta.get x).toInt < -(2 ^ (s.countW - 1)) then
            (match s.params.ovf with
             | .wrap => s.count + (s.delta.get x).toInt + 2 ^ s.countW
             | .saturate => -(2 ^ (s.countW - 1)))
          else s.count + (s.delta.get x).toInt
        phase := s.phase.set x .idle
        stack := s.stack.dropLast
        draws := s.draws + s.choiceDraws })

/-- Wrap-around and saturation (00_scope.md section 4): `wrap_N(i)` is the one integer of the signed
range congruent to `i`, a pattern read back is the wrapped integer, and saturation is the identity
in the range and the nearer limit outside it. -/
def Obligations.WrapAndSaturate : Prop :=
  ∀ (n : Nat) (i : Int), 0 < n →
    (∀ j : Int, (InSint n j ∧ (j - i) % 2 ^ n = 0) ↔ j = wrapN n i) ∧
    sintN n (patternN n i) = wrapN n i ∧
    (InSint n i → satN n i = i) ∧ (sintMax n < i → satN n i = sintMax n) ∧
    (i < sintMin n → satN n i = sintMin n)

/-- A whole service (30_encoding.md section 5, `service X`; 60_exceptions.md section 4): with ARMED set
its three lines acknowledge, sample and commit, leave a preempted channel's PHASE and DELTA and the
rest of STACK as they were, and change nothing else. -/
def Obligations.ServiceRunsToCompletion : Prop :=
  ∀ (s : State) (x : Src) (rest : List Event), s.armed = true → s.grantee = some x →
    s.script = serviceLines x ++ rest →
      ∃ d : Delta,
        d.toInt = (if s.drv.a = .low ∧ s.drv.b = .low then (if x = .a then 1 else -1) else 0) ∧
        Host.Core.run core 3 s = .next { s with
          script := rest
          pend := s.pend.set x false
          delta := s.delta.set x d
          count := addCount s.params s.count d.toInt }

/-- No re-entry (41_service.md section 4): a source is granted only from IDLE and while it is not in
service; a falling edge on a source in service is latched for a later grant. -/
def Obligations.NoReentry : Prop :=
  (∀ (s t : State), s.Inv → s.nextEvent = some .grant → step s = .next t →
    ∃ x, t.stack = s.stack ++ [x] ∧ s.phase.get x = .idle ∧ x ∉ s.stack ∧ s.pend.get x = true) ∧
  (∀ (s : State) (x : Src) (rest : List Event), s.Inv → x ∈ s.stack → s.drv.get x ≠ .low →
    s.script = .drive x .low :: rest →
      ∃ t, step s = .next t ∧ t.pend.get x = true ∧ t.stack = s.stack ∧ t.phase = s.phase)

/-- Masking stops new grants and does not drain (70_reset_and_hazards.md section 3): with both enables
0 no GRANT goes on, and a service in progress still samples and commits. -/
def Obligations.MaskingHoldsGrantsOnly : Prop :=
  ∀ s : State, s.en = ⟨false, false⟩ →
    s.grantee = none ∧
    (∀ t, step s = .next t → s.nextEvent ≠ some .grant ∧ t.stack.length ≤ s.stack.length) ∧
    (∀ (x : Src) (rest : List Event), s.stack.getLast? = some x → s.phase.get x = .sampled →
      s.script = .commit x :: rest →
        ∃ t, step s = .next t ∧ t.count = addCount s.params s.count (s.delta.get x).toInt)

/-- A TAKE sees the whole effect of a COMMIT or none of it (20_memory.md section 4; vector K10 of
95_test_vectors.md): the two orders of one COMMIT and one TAKE. -/
def Obligations.TakeCommitOrders : Prop :=
  ∀ (s : State) (x : Src) (rest : List Event), s.stack.getLast? = some x →
    s.phase.get x = .sampled → InSint s.countW s.count →
    (s.script = .host 0x2000#16 :: .commit x :: rest →
      ∃ t, Host.Core.run core 2 s = .next t ∧ sintN s.countW t.rdata = s.count ∧
        t.count = (s.delta.get x).toInt) ∧
    (s.script = .commit x :: .host 0x2000#16 :: rest →
      ∃ t, Host.Core.run core 2 s = .next t ∧
        sintN s.countW t.rdata = addCount s.params s.count (s.delta.get x).toInt ∧ t.count = 0)

/-! ### Faults (60_exceptions.md) -/

/-- 60_exceptions.md R99 and 10_state.md R30: the first fault's code is kept, RDATA is 0 and nothing
else changes; only RESET clears ERR and ERRCODE; the run's mark is cleared by no step and bars a good
final state; the block goes on after a fault as it would have without it. -/
def Obligations.FaultKeepsFirstCode : Prop :=
  (∀ (c : ErrCode) (s : State), raiseFault c s =
    { s with err := true, errcode := if s.err then s.errcode else c, rdata := 0, faulted := true }) ∧
  (∀ s t : State, s.err = true → step s = .next t → s.nextIs Event.isReset = false →
    t.err = true ∧ t.errcode = s.errcode) ∧
  (∀ (s : State) (rest : List Event), s.script = .reset :: rest →
    ∃ t, step s = .next t ∧ t.err = false ∧ t.errcode = .none ∧ t.faulted = s.faulted) ∧
  (∀ s t : State, s.faulted = true → step s = .next t → t.faulted = true) ∧
  (∀ s : State, s.faulted = true → ¬ s.GoodFinal) ∧
  (∀ (s : State) (b f : Bool) (c : ErrCode), (∃ t, step s = .next t) ↔
    ∃ t, step { s with err := b, errcode := c, faulted := f } = .next t)

/-- 60_exceptions.md R98: the codes' values, that code 3 is never held, and that only an illegal word
and an INIT during a service record a fault. -/
def Obligations.FaultCausesComplete : Prop :=
  (ErrCode.none.bits = 0#2 ∧ ErrCode.illegalCmd.bits = 1#2 ∧ ErrCode.initActive.bits = 2#2 ∧
    ∀ c : ErrCode, c.bits ≠ 3#2) ∧
  (∀ s t : State, s.err = false → step s = .next t → t.err = true →
    ∃ w, s.nextEvent = some (.host w) ∧
      ((∃ e, decode w = .error e ∧ t.errcode = .illegalCmd) ∨
       (∃ pa pb, decode w = .ok (.init pa pb) ∧ s.stack ≠ [] ∧ t.errcode = .initActive))) ∧
  (∀ s t : State, step s = .next t → t.errcode ≠ s.errcode →
    s.nextIs Event.isReset = true ∨ (t.err = true ∧ s.nextIs Event.isHost = true))

/-- ARMED, the enables, the priorities, ERR and ERRCODE change only at a HOST step or a RESET
(70_reset_and_hazards.md section 3, "STAT is a snapshot"). -/
def Obligations.ConfigurationStable : Prop :=
  ∀ s t : State, step s = .next t → s.nextIs Event.isHost = false →
    s.nextIs Event.isReset = false →
      t.armed = s.armed ∧ t.en = s.en ∧ t.prio = s.prio ∧ t.err = s.err ∧ t.errcode = s.errcode ∧
        t.rdata = s.rdata

/-! ### Reset (10_state.md section 6, 70_reset_and_hazards.md) -/

/-- 10_state.md R36 at the start of a run: every element with a reset value has it. -/
def Obligations.ResetStateValues : Prop :=
  State.reset.count = 0 ∧ State.reset.pend = ⟨false, false⟩ ∧ State.reset.en = ⟨false, false⟩ ∧
  State.reset.armed = false ∧ State.reset.prio = ⟨0x0#4, 0x0#4⟩ ∧
  State.reset.phase = ⟨.idle, .idle⟩ ∧ State.reset.delta = ⟨.zero, .zero⟩ ∧
  State.reset.stack = [] ∧ State.reset.err = false ∧ State.reset.errcode = .none ∧
  State.reset.rdata = 0

/-- 70_reset_and_hazards.md R114 and 10_state.md R36: RESET, whatever is in progress, leaves every
element at its reset value, the drives and the run's fault mark as they were. -/
def Obligations.ResetEventClearsBlock : Prop :=
  ∀ (s : State) (rest : List Event), s.script = .reset :: rest →
    ∃ t, step s = .next t ∧
      t.count = 0 ∧ t.pend = ⟨false, false⟩ ∧ t.en = ⟨false, false⟩ ∧ t.armed = false ∧
      t.prio = ⟨0x0#4, 0x0#4⟩ ∧ t.phase = ⟨.idle, .idle⟩ ∧ t.delta = ⟨.zero, .zero⟩ ∧
      t.stack = [] ∧ t.err = false ∧ t.errcode = .none ∧ t.rdata = 0 ∧
      t.drv = s.drv ∧ t.faulted = s.faulted ∧ t.script = rest

/-- The invariant holds at the start of a run. -/
def Obligations.ResetMeetsInv : Prop := State.reset.Inv

/-- The invariant (10_state.md section 2: STACK against PHASE, no repeats, strictly smaller `pre` on
top; COUNT and RDATA in range; nothing pending, in service or counted before INIT; ERRCODE against
ERR; the fault mark) is kept by every step of every agent. -/
def Obligations.StepKeepsInv : Prop :=
  ∀ s t : State, s.Inv → step s = .next t → t.Inv

/-- From RESET until the first accepted INIT nothing is latched, granted or counted, whatever ENV does
(70_reset_and_hazards.md section 1): over any run that has not armed the block. -/
def Obligations.UnarmedBlockStaysQuiet : Prop :=
  ∀ (k : Nat) (s t : State), s.Inv → Host.Core.run core k s = .next t → t.armed = false →
    t.pend = ⟨false, false⟩ ∧ t.stack = [] ∧ t.count = 0 ∧ t.grantee = none

/-! ### Runs -/

/-- With no line left, the machine has no step exactly in a quiescent state (70_reset_and_hazards.md
section 5); that this is the stop named `quiescent` is the model's choice (notes/assumptions/3.md). -/
def Obligations.QuiescentExactlyWhenNoStep : Prop :=
  ∀ s : State, s.Inv → s.script = [] → (step s = .fault .quiescent ↔ s.Quiescent)

/-- "the internal steps are ... finite in number without new ENV steps" (70_reset_and_hazards.md
section 5): with no line left, at most ten internal steps lead to a quiescent state, whichever of two
enabled steps the free choice takes first. -/
def Obligations.InternalRunReachesQuiescence : Prop :=
  ∀ s : State, s.Inv → s.script = [] →
    ∃ k t, k ≤ 10 ∧ Host.Core.run core k s = .next t ∧ t.Quiescent ∧ t.script = [] ∧
      step t = .fault .quiescent

/-- With `OVF_POLICY = wrap`, what a TAKE returns is the wrapped sum of the deltas committed since
COUNT was last zero by TAKE or RESET (41_service.md section 3). -/
def Obligations.TakeReturnsCommittedSum : Prop :=
  ∀ (k : Nat) (s t : State), s.params.ovf = .wrap → s.count = 0 →
    Host.Core.run core k s = .next t →
    runAvoids (fun e => e.isTake || e.isReset) k s = true →
      ∃ u, exec .take t = .next u ∧
        sintN t.countW u.rdata = wrapN s.countW (runSum State.committing k s) ∧ u.count = 0

/-- "every COMMIT's delta is returned by exactly one TAKE or is still in COUNT" (41_service.md section
3), with `OVF_POLICY = wrap`, over any run without a RESET: what the TAKEs returned and what is left
add up to what was there and what was committed. -/
def Obligations.CommittedDeltasConserved : Prop :=
  ∀ (k : Nat) (s t : State), s.params.ovf = .wrap → Host.Core.run core k s = .next t →
    runAvoids Event.isReset k s = true →
      (runSum State.taking k s + t.count) % 2 ^ s.countW =
        (s.count + runSum State.committing k s) % 2 ^ s.countW

/-- No step loses or doubles a delta (41_service.md section 3): with `OVF_POLICY = wrap`, from every state
and for every step but a RESET, what a TAKE returned and the COUNT left are the COUNT before and the
delta committed, modulo `2^COUNT_W`. -/
def Obligations.StepConservesCount : Prop :=
  ∀ s t : State, s.params.ovf = .wrap → step s = .next t → s.nextIs Event.isReset = false →
    (s.taking + t.count) % 2 ^ s.countW = (s.count + s.committing) % 2 ^ s.countW

/-- Property P1 of 95_test_vectors.md section 1.1, under both policies: after a run with N COMMITs
from COUNT = 0, COUNT is at most N in size. -/
def Obligations.CountBoundedByCommits : Prop :=
  ∀ (k : Nat) (s t : State), s.count = 0 → Host.Core.run core k s = .next t →
    (t.count.natAbs : Int) ≤ runSum (fun u => if u.nextIs Event.isCommit then 1 else 0) k s

/-- Property P2 of 95_test_vectors.md section 1.1: after a TAKE, with no COMMIT since, a TAKE returns
0, whatever else happened. -/
def Obligations.TakeAgainReturnsZero : Prop :=
  ∀ (k : Nat) (s u t : State), exec .take s = .next u → Host.Core.run core k u = .next t →
    runAvoids Event.isCommit k u = true → exec .take t = .next { t with rdata := 0 }

/-! ### Infinite runs and fairness (41_service.md section 4; the form is notes/assumptions/14.md) -/

/-- A run and the machine's `step` tell one story (00_scope.md section 4): the steps of the first `k`
instants of a run, as a script, are the steps that `step` takes, to the same state; and every script
that goes on is the start of a weakly fair run. -/
def Obligations.RunsExtendScripts : Prop :=
  (∀ (σ : Nat → State) (ε : Nat → Option Event) (k : Nat) (rest : List Event), IsRun σ ε →
    Host.Core.run core (linesOf ε k).length { σ 0 with script := linesOf ε k ++ rest } =
      .next { σ k with script := rest }) ∧
  (∀ (s t : State) (lines rest : List Event),
    Host.Core.run core lines.length { s with script := lines ++ rest } = .next t →
      ∃ (σ : Nat → State) (ε : Nat → Option Event), IsRun σ ε ∧ WeaklyFair σ ε ∧ σ 0 = s ∧
        linesOf ε lines.length = lines ∧ { σ lines.length with script := rest } = t)

/-- "ENV and HOST are under no fairness obligation" (41_service.md section 4): from every state, whatever
ENV, HOST and RESET do, unendingly, now and then or never, there is a weakly fair run in which they do
exactly that, the block's own steps coming between. -/
def Obligations.FairRunForAnyInputs : Prop :=
  ∀ (s : State) (inp : Nat → Option Event), (∀ n e, inp n = some e → e.isInternal = false) →
    ∃ (σ : Nat → State) (ε : Nat → Option Event), IsRun σ ε ∧ WeaklyFair σ ε ∧ σ 0 = s ∧
      ∀ n, ε (2 * n + 1) = inp n ∧ ∀ e, ε (2 * n) = some e → e.isInternal = true

/-- What weak fairness gives (41_service.md section 4), over unending steps of ENV and HOST, with no
RESET from instant `n` on. On a block with STACK empty, an edge pending on a source that stays enabled
is followed by a GRANT. A service on top that the other source cannot preempt samples once and then
commits once. (A service that is preempted again and again by edges that keep arriving need not end:
weak fairness asks nothing of a step that does not stay enabled.) -/
def Obligations.FairRunServes : Prop :=
  ∀ (σ : Nat → State) (ε : Nat → Option Event) (n : Nat) (x : Src), IsRun σ ε → WeaklyFair σ ε →
    (σ n).Inv → (∀ m, n ≤ m → ε m ≠ some .reset) →
    ((σ n).stack = [] → (σ n).pend.get x = true → (∀ m, n ≤ m → (σ m).en.get x = true) →
      ∃ m, n ≤ m ∧ ε m = some .grant) ∧
    ((σ n).stack.getLast? = some x → (σ n).phase.get x = .granted →
      (x.other ∈ (σ n).stack ∨ (σ n).pre x ≤ (σ n).pre x.other) →
      ∃ i j, n ≤ i ∧ i < j ∧ ε i = some (.sample x) ∧ ε j = some (.commit x) ∧
        ∀ k, n ≤ k → k ≤ j → (ε k = some (.sample x) → k = i) ∧ (ε k = some (.commit x) → k = j))

/-- "Between the two sources there is no fairness" (41_service.md section 4): a weakly fair run, from a
state meeting the invariant, in which ENV keeps A's edges arriving, GRANTs never end, and B, enabled and
pending at every instant, is never granted; so there is no bound on how long a source waits. -/
def Obligations.StarvationIsFair : Prop :=
  ∃ (σ : Nat → State) (ε : Nat → Option Event), IsRun σ ε ∧ WeaklyFair σ ε ∧ (σ 0).Inv ∧
    (∀ n, (σ n).pend.b = true ∧ (σ n).en.b = true ∧ (σ n).phase.b = .idle) ∧
    (∀ n, ∃ m, n ≤ m ∧ ε m = some .grant) ∧ (∀ n, ∃ m, n ≤ m ∧ ε m = some (.drive .a .low))
end

