-- ==== Sys2Proof/Laws/Arith.lean ====
section
/-! SUPPORT. What the arithmetic of 00_scope.md R12 does, once: ranges, congruence, size. -/

namespace Sys2Proof.Machine

theorem two_pow_pred {n : Nat} (h : 0 < n) : (2 : Int) ^ n = 2 * 2 ^ (n - 1) := by
  obtain ⟨m, rfl⟩ : ∃ m, n = m + 1 := ⟨n - 1, by omega⟩
  simp [pow_succ, mul_comm]

theorem two_pow_int_pos (n : Nat) : (0 : Int) < 2 ^ n := by positivity

theorem wrapN_inSint {n : Nat} (h : 0 < n) (i : Int) : InSint n (wrapN n i) := by
  have h0 := two_pow_int_pos (n - 1)
  have h1 := Int.emod_nonneg (i + 2 ^ (n - 1)) (two_pow_int_pos n).ne'
  have h2 := Int.emod_lt_of_pos (i + 2 ^ (n - 1)) (two_pow_int_pos n)
  rw [two_pow_pred h] at h1 h2
  unfold InSint wrapN sintMin sintMax
  rw [two_pow_pred h]
  omega

theorem wrapN_emod {n : Nat} (i : Int) : wrapN n i % 2 ^ n = i % 2 ^ n := by
  unfold wrapN
  rw [Int.sub_emod, Int.emod_emod_of_dvd _ (dvd_refl _), ← Int.sub_emod]
  congr 1
  omega

/-- An integer of the range is the only one congruent to it in the range. -/
theorem inSint_unique {n : Nat} (h : 0 < n) {i j : Int} (hi : InSint n i) (hj : InSint n j)
    (hij : i % 2 ^ n = j % 2 ^ n) : i = j := by
  have hd : (2 : Int) ^ n ∣ i - j := Int.ModEq.dvd (a := j) (b := i) hij.symm
  obtain ⟨k, hk⟩ := hd
  have h0 := two_pow_int_pos (n - 1)
  rw [two_pow_pred h] at hk
  unfold InSint sintMin sintMax at hi hj
  have : k = 0 := by
    by_contra hne
    rcases lt_or_gt_of_ne hne with hlt | hgt
    · nlinarith
    · nlinarith
  subst this
  omega

theorem wrapN_eq_self {n : Nat} (h : 0 < n) {i : Int} (hi : InSint n i) : wrapN n i = i :=
  inSint_unique h (wrapN_inSint h i) hi (wrapN_emod i)

theorem wrapN_congr {n : Nat} {i j : Int} (hij : i % 2 ^ n = j % 2 ^ n) : wrapN n i = wrapN n j := by
  unfold wrapN
  rw [Int.add_emod, hij, ← Int.add_emod]

theorem satN_inSint {n : Nat} (i : Int) : InSint n (satN n i) := by
  have h0 := two_pow_int_pos (n - 1)
  unfold InSint satN sintMin sintMax
  omega

theorem satN_eq_self {n : Nat} {i : Int} (hi : InSint n i) : satN n i = i := by
  unfold InSint at hi
  unfold satN
  omega

/-- Neither policy makes a number larger in size. -/
theorem wrapN_natAbs_le {n : Nat} (h : 0 < n) (i : Int) : (wrapN n i).natAbs ≤ i.natAbs := by
  by_cases hi : InSint n i
  · rw [wrapN_eq_self h hi]
  · have hw := wrapN_inSint h i
    unfold InSint sintMin sintMax at hi hw
    omega

theorem satN_natAbs_le {n : Nat} (i : Int) : (satN n i).natAbs ≤ i.natAbs := by
  have h0 := two_pow_int_pos (n - 1)
  unfold satN sintMin sintMax
  omega

theorem countW_pos (p : Params) : 0 < p.countW := by
  unfold Params.countW
  omega

theorem addCount_inSint (p : Params) (c d : Int) : InSint p.countW (addCount p c d) := by
  unfold addCount
  split
  · exact wrapN_inSint (countW_pos p) _
  · exact satN_inSint _

theorem addCount_natAbs_le (p : Params) (c d : Int) :
    (addCount p c d).natAbs ≤ c.natAbs + d.natAbs := by
  have h := Int.natAbs_add_le c d
  unfold addCount
  split
  · exact (wrapN_natAbs_le (countW_pos p) _).trans h
  · exact (satN_natAbs_le _).trans h

theorem addCount_wrap {p : Params} (h : p.ovf = .wrap) (c d : Int) :
    addCount p c d = wrapN p.countW (c + d) := by
  simp [addCount, h]

theorem addCount_saturate {p : Params} (h : p.ovf = .saturate) (c d : Int) :
    addCount p c d = satN p.countW (c + d) := by
  simp [addCount, h]

theorem patternN_lt (n : Nat) (i : Int) : patternN n i < 2 ^ n := by
  have h1 := Int.emod_nonneg i (two_pow_int_pos n).ne'
  have h2 := Int.emod_lt_of_pos i (two_pow_int_pos n)
  unfold patternN
  zify
  rw [Int.toNat_of_nonneg h1]
  exact h2

theorem patternN_congr {n : Nat} {i j : Int} (hij : i % 2 ^ n = j % 2 ^ n) :
    patternN n i = patternN n j := by
  unfold patternN
  rw [hij]

/-- Reading a pattern back gives the integer of the range it came from. -/
theorem sintN_patternN {n : Nat} (h : 0 < n) {i : Int} (hi : InSint n i) :
    sintN n (patternN n i) = i := by
  have h0 := two_pow_int_pos (n - 1)
  have hp := two_pow_pred h
  have hc : ((2 ^ n : Nat) : Int) = 2 ^ n := by norm_cast
  unfold InSint sintMin sintMax at hi
  unfold sintN patternN
  rcases lt_or_ge i 0 with hneg | hpos
  · have : i % 2 ^ n = i + 2 ^ n := by
      rw [← Int.add_emod_right, Int.emod_eq_of_lt] <;> omega
    rw [this]
    split <;> omega
  · rw [Int.emod_eq_of_lt hpos (by omega)]
    split <;> omega

theorem delta_natAbs_le (d : Delta) : d.toInt.natAbs ≤ 1 := by cases d <;> decide

end Sys2Proof.Machine
end

