-- ==== Sys2Proof/Laws/State.lean ====
section
/-! SUPPORT. The small lemmas of the pairs and of the named updates of the state: one per field an
update could touch, all by definition. -/

namespace Sys2Proof

variable {α : Type}

@[simp] theorem Pair.get_set_same (p : Pair α) (x : Src) (v : α) : (p.set x v).get x = v := by
  cases x <;> rfl

@[simp] theorem Pair.get_set_other (p : Pair α) (x : Src) (v : α) :
    (p.set x v).get x.other = p.get x.other := by cases x <;> rfl

theorem Pair.get_set_ne (p : Pair α) {x y : Src} (v : α) (h : y ≠ x) :
    (p.set x v).get y = p.get y := by cases x <;> cases y <;> first | rfl | exact absurd rfl h

theorem Pair.get_set (p : Pair α) (x y : Src) (v : α) :
    (p.set x v).get y = if y = x then v else p.get y := by
  cases x <;> cases y <;> rfl

@[simp] theorem Pair.set_set (p : Pair α) (x : Src) (v w : α) : (p.set x v).set x w = p.set x w := by
  cases x <;> rfl

@[simp] theorem Pair.set_get (p : Pair α) (x : Src) : p.set x (p.get x) = p := by cases x <;> rfl

@[simp] theorem Pair.get_mk (u v : α) (x : Src) : (Pair.mk u v).get x = if x = .a then u else v := by
  cases x <;> rfl

@[simp] theorem Src.other_ne (x : Src) : x.other ≠ x := by cases x <;> decide

@[simp] theorem Src.ne_other (x : Src) : x ≠ x.other := by cases x <;> decide

theorem Src.eq_other_of_ne {x y : Src} (h : x ≠ y) : x = y.other := by
  cases x <;> cases y <;> first | rfl | exact absurd rfl h

@[simp] theorem Src.other_other (x : Src) : x.other.other = x := by cases x <;> rfl

namespace Machine

variable (s : State)

@[simp] theorem State.countW_params (p : Params) : ({ s with params := p } : State).countW = p.countW := rfl

section Respond
variable (v : Nat)
@[simp] theorem respond_params : (respond v s).params = s.params := rfl
@[simp] theorem respond_count : (respond v s).count = s.count := rfl
@[simp] theorem respond_rdata : (respond v s).rdata = v := rfl
@[simp] theorem respond_pend : (respond v s).pend = s.pend := rfl
@[simp] theorem respond_en : (respond v s).en = s.en := rfl
@[simp] theorem respond_armed : (respond v s).armed = s.armed := rfl
@[simp] theorem respond_prio : (respond v s).prio = s.prio := rfl
@[simp] theorem respond_phase : (respond v s).phase = s.phase := rfl
@[simp] theorem respond_delta : (respond v s).delta = s.delta := rfl
@[simp] theorem respond_stack : (respond v s).stack = s.stack := rfl
@[simp] theorem respond_err : (respond v s).err = s.err := rfl
@[simp] theorem respond_errcode : (respond v s).errcode = s.errcode := rfl
@[simp] theorem respond_drv : (respond v s).drv = s.drv := rfl
@[simp] theorem respond_faulted : (respond v s).faulted = s.faulted := rfl
@[simp] theorem respond_draws : (respond v s).draws = s.draws := rfl
@[simp] theorem respond_script : (respond v s).script = s.script := rfl
end Respond

section RaiseFault
variable (c : ErrCode)
@[simp] theorem raiseFault_params : (raiseFault c s).params = s.params := rfl
@[simp] theorem raiseFault_count : (raiseFault c s).count = s.count := rfl
@[simp] theorem raiseFault_rdata : (raiseFault c s).rdata = 0 := rfl
@[simp] theorem raiseFault_pend : (raiseFault c s).pend = s.pend := rfl
@[simp] theorem raiseFault_en : (raiseFault c s).en = s.en := rfl
@[simp] theorem raiseFault_armed : (raiseFault c s).armed = s.armed := rfl
@[simp] theorem raiseFault_prio : (raiseFault c s).prio = s.prio := rfl
@[simp] theorem raiseFault_phase : (raiseFault c s).phase = s.phase := rfl
@[simp] theorem raiseFault_delta : (raiseFault c s).delta = s.delta := rfl
@[simp] theorem raiseFault_stack : (raiseFault c s).stack = s.stack := rfl
@[simp] theorem raiseFault_err : (raiseFault c s).err = true := rfl
@[simp] theorem raiseFault_errcode :
    (raiseFault c s).errcode = if s.err then s.errcode else c := rfl
@[simp] theorem raiseFault_drv : (raiseFault c s).drv = s.drv := rfl
@[simp] theorem raiseFault_faulted : (raiseFault c s).faulted = true := rfl
@[simp] theorem raiseFault_draws : (raiseFault c s).draws = s.draws := rfl
@[simp] theorem raiseFault_script : (raiseFault c s).script = s.script := rfl
end RaiseFault

section EnterService
variable (x : Src)
@[simp] theorem enterService_params : (enterService x s).params = s.params := rfl
@[simp] theorem enterService_count : (enterService x s).count = s.count := rfl
@[simp] theorem enterService_rdata : (enterService x s).rdata = s.rdata := rfl
@[simp] theorem enterService_pend : (enterService x s).pend = s.pend.set x false := rfl
@[simp] theorem enterService_en : (enterService x s).en = s.en := rfl
@[simp] theorem enterService_armed : (enterService x s).armed = s.armed := rfl
@[simp] theorem enterService_prio : (enterService x s).prio = s.prio := rfl
@[simp] theorem enterService_phase : (enterService x s).phase = s.phase.set x .granted := rfl
@[simp] theorem enterService_delta : (enterService x s).delta = s.delta := rfl
@[simp] theorem enterService_stack : (enterService x s).stack = s.stack ++ [x] := rfl
@[simp] theorem enterService_err : (enterService x s).err = s.err := rfl
@[simp] theorem enterService_errcode : (enterService x s).errcode = s.errcode := rfl
@[simp] theorem enterService_drv : (enterService x s).drv = s.drv := rfl
@[simp] theorem enterService_faulted : (enterService x s).faulted = s.faulted := rfl
@[simp] theorem enterService_draws : (enterService x s).draws = s.draws := rfl
@[simp] theorem enterService_script : (enterService x s).script = s.script := rfl
end EnterService

section LeaveService
variable (x : Src)
@[simp] theorem leaveService_params : (leaveService x s).params = s.params := rfl
@[simp] theorem leaveService_count : (leaveService x s).count = s.count := rfl
@[simp] theorem leaveService_rdata : (leaveService x s).rdata = s.rdata := rfl
@[simp] theorem leaveService_pend : (leaveService x s).pend = s.pend := rfl
@[simp] theorem leaveService_en : (leaveService x s).en = s.en := rfl
@[simp] theorem leaveService_armed : (leaveService x s).armed = s.armed := rfl
@[simp] theorem leaveService_prio : (leaveService x s).prio = s.prio := rfl
@[simp] theorem leaveService_phase : (leaveService x s).phase = s.phase.set x .idle := rfl
@[simp] theorem leaveService_delta : (leaveService x s).delta = s.delta := rfl
@[simp] theorem leaveService_stack : (leaveService x s).stack = s.stack.dropLast := rfl
@[simp] theorem leaveService_err : (leaveService x s).err = s.err := rfl
@[simp] theorem leaveService_errcode : (leaveService x s).errcode = s.errcode := rfl
@[simp] theorem leaveService_drv : (leaveService x s).drv = s.drv := rfl
@[simp] theorem leaveService_faulted : (leaveService x s).faulted = s.faulted := rfl
@[simp] theorem leaveService_draws : (leaveService x s).draws = s.draws := rfl
@[simp] theorem leaveService_script : (leaveService x s).script = s.script := rfl
end LeaveService

section AddDelta
variable (x : Src)
@[simp] theorem addDelta_params : (addDelta x s).params = s.params := rfl
@[simp] theorem addDelta_count :
    (addDelta x s).count = addCount s.params s.count (s.delta.get x).toInt := rfl
@[simp] theorem addDelta_rdata : (addDelta x s).rdata = s.rdata := rfl
@[simp] theorem addDelta_pend : (addDelta x s).pend = s.pend := rfl
@[simp] theorem addDelta_en : (addDelta x s).en = s.en := rfl
@[simp] theorem addDelta_armed : (addDelta x s).armed = s.armed := rfl
@[simp] theorem addDelta_prio : (addDelta x s).prio = s.prio := rfl
@[simp] theorem addDelta_phase : (addDelta x s).phase = s.phase := rfl
@[simp] theorem addDelta_delta : (addDelta x s).delta = s.delta := rfl
@[simp] theorem addDelta_stack : (addDelta x s).stack = s.stack := rfl
@[simp] theorem addDelta_err : (addDelta x s).err = s.err := rfl
@[simp] theorem addDelta_errcode : (addDelta x s).errcode = s.errcode := rfl
@[simp] theorem addDelta_drv : (addDelta x s).drv = s.drv := rfl
@[simp] theorem addDelta_faulted : (addDelta x s).faulted = s.faulted := rfl
@[simp] theorem addDelta_draws : (addDelta x s).draws = s.draws := rfl
@[simp] theorem addDelta_script : (addDelta x s).script = s.script := rfl
end AddDelta

section ArmBlock
variable (pa pb : BitVec 4)
@[simp] theorem armBlock_params : (armBlock pa pb s).params = s.params := rfl
@[simp] theorem armBlock_count : (armBlock pa pb s).count = s.count := rfl
@[simp] theorem armBlock_rdata : (armBlock pa pb s).rdata = s.rdata := rfl
@[simp] theorem armBlock_pend : (armBlock pa pb s).pend = s.pend := rfl
@[simp] theorem armBlock_en : (armBlock pa pb s).en = ⟨true, true⟩ := rfl
@[simp] theorem armBlock_armed : (armBlock pa pb s).armed = true := rfl
@[simp] theorem armBlock_prio : (armBlock pa pb s).prio = ⟨pa, pb⟩ := rfl
@[simp] theorem armBlock_phase : (armBlock pa pb s).phase = s.phase := rfl
@[simp] theorem armBlock_delta : (armBlock pa pb s).delta = s.delta := rfl
@[simp] theorem armBlock_stack : (armBlock pa pb s).stack = s.stack := rfl
@[simp] theorem armBlock_err : (armBlock pa pb s).err = s.err := rfl
@[simp] theorem armBlock_errcode : (armBlock pa pb s).errcode = s.errcode := rfl
@[simp] theorem armBlock_drv : (armBlock pa pb s).drv = s.drv := rfl
@[simp] theorem armBlock_faulted : (armBlock pa pb s).faulted = s.faulted := rfl
@[simp] theorem armBlock_draws : (armBlock pa pb s).draws = s.draws := rfl
@[simp] theorem armBlock_script : (armBlock pa pb s).script = s.script := rfl
end ArmBlock

section ResetBlock
@[simp] theorem resetBlock_params : (resetBlock s).params = s.params := rfl
@[simp] theorem resetBlock_count : (resetBlock s).count = 0 := rfl
@[simp] theorem resetBlock_rdata : (resetBlock s).rdata = 0 := rfl
@[simp] theorem resetBlock_pend : (resetBlock s).pend = ⟨false, false⟩ := rfl
@[simp] theorem resetBlock_en : (resetBlock s).en = ⟨false, false⟩ := rfl
@[simp] theorem resetBlock_armed : (resetBlock s).armed = false := rfl
@[simp] theorem resetBlock_prio : (resetBlock s).prio = ⟨0x0#4, 0x0#4⟩ := rfl
@[simp] theorem resetBlock_phase : (resetBlock s).phase = ⟨.idle, .idle⟩ := rfl
@[simp] theorem resetBlock_delta : (resetBlock s).delta = ⟨.zero, .zero⟩ := rfl
@[simp] theorem resetBlock_stack : (resetBlock s).stack = [] := rfl
@[simp] theorem resetBlock_err : (resetBlock s).err = false := rfl
@[simp] theorem resetBlock_errcode : (resetBlock s).errcode = .none := rfl
@[simp] theorem resetBlock_drv : (resetBlock s).drv = s.drv := rfl
@[simp] theorem resetBlock_faulted : (resetBlock s).faulted = s.faulted := rfl
@[simp] theorem resetBlock_draws : (resetBlock s).draws = s.draws := rfl
@[simp] theorem resetBlock_script : (resetBlock s).script = s.script := rfl
end ResetBlock

@[simp] theorem drawBit_snd : (drawBit s).2 = { s with draws := s.draws + 1 } := rfl

@[simp] theorem drawBit_fst : (drawBit s).1 = Config.freeBit s.draws := rfl

end Machine
end Sys2Proof
end

