-- ==== Sys2Proof/Laws/Ops.lean ====
section
/-! SUPPORT. For each shared operation, once, everything it can do: reading a level, driving a line,
sampling, choosing a grant. Proofs cite these instead of unfolding. -/

namespace Sys2Proof.Machine

/-- With the pull-up on no read is a draw. -/
theorem readDraws_armed {s : State} (ha : s.armed = true) (d : Drive) : s.readDraws d = 0 :=
  if_neg fun h => by rw [ha] at h; cases h.2

/-- Reading a level changes nothing but the count of draws, by one where the line floats. -/
theorem readLevel_spec (l : Src) (s : State) :
    LevelAgrees s l (readLevel l s).1 ∧
      (readLevel l s).2 = { s with draws := s.draws + s.readDraws (s.drv.get l) } := by
  unfold readLevel LevelAgrees levelAt State.readDraws
  cases s.drv.get l <;> cases s.armed <;> simp

/-- With the pull-up on, a line reads 0 exactly when it is driven low (40_edge_detect.md R68). -/
theorem LevelAgrees.armed {s : State} {l : Src} {v : Bool} (h : LevelAgrees s l v)
    (ha : s.armed = true) : v = decide (s.drv.get l ≠ .low) := by
  obtain ⟨h0, h1, h2⟩ := h
  cases hd : s.drv.get l <;> simp_all

theorem readLevel_armed (l : Src) {s : State} (ha : s.armed = true) :
    readLevel l s = (decide (s.drv.get l ≠ .low), s) := by
  obtain ⟨hl, hs⟩ := readLevel_spec l s
  rw [readDraws_armed ha] at hs
  exact Prod.ext (hl.armed ha) hs

/-- What DRIVE does: the drive, the latch, and the draws of its two reads, nothing else. -/
theorem driveLine_spec (l : Src) (v : Drive) (s : State) :
    driveLine l v s =
        { s with
          drv := s.drv.set l v
          pend := s.pend.set l
            (s.pend.get l || (s.armed && decide (s.drv.get l ≠ .low) && decide (v = .low)))
          draws := s.draws + s.readDraws (s.drv.get l) + s.readDraws v } := by
  obtain ⟨h0, hn⟩ := readLevel_spec l s
  generalize s.draws + s.readDraws (s.drv.get l) = n at hn ⊢
  obtain ⟨h1, hm⟩ := readLevel_spec l { s with draws := n, drv := s.drv.set l v }
  have hlatch : fallingEdge s.armed (readLevel l s).1
      (readLevel l { s with draws := n, drv := s.drv.set l v }).1 =
      (s.armed && decide (s.drv.get l ≠ .low) && decide (v = .low)) := by
    by_cases ha : s.armed = true
    · rw [h0.armed ha, h1.armed ha]
      cases v <;> simp [fallingEdge]
    · simp [fallingEdge, Bool.eq_false_iff.mpr ha]
  simp only [Pair.get_set_same] at hm
  simp only [driveLine, hn, hlatch, hm]
  split
  · next h => rw [h, Bool.or_true]; rfl
  · next h => rw [Bool.eq_false_iff.mpr h, Bool.or_false, Pair.set_get]; rfl

/-- What SAMPLE does: the delta of two levels the lines may have, the phase, the draws of the reads. -/
theorem takeSample_spec (x : Src) (s : State) :
    ∃ la lb, LevelAgrees s .a la ∧ LevelAgrees s .b lb ∧
      takeSample x s =
        { s with
          delta := s.delta.set x (muxDelta x la lb)
          phase := s.phase.set x .sampled
          draws := s.draws + s.readDraws s.drv.a + s.readDraws s.drv.b } := by
  obtain ⟨ha, hn⟩ := readLevel_spec .a s
  generalize hd : s.draws + s.readDraws (s.drv.get .a) = n at hn
  obtain ⟨hb, hm⟩ := readLevel_spec .b { s with draws := n }
  refine ⟨_, (readLevel .b { s with draws := n }).1, ha, hb, ?_⟩
  rw [show s.draws + s.readDraws s.drv.a = n from hd]
  simp only [takeSample, hn, hm]
  rfl

/-- What STAT does: RDATA gets the view of two levels the lines may have; the draws of the reads. -/
theorem execStat_spec (s : State) :
    ∃ la lb, LevelAgrees s .a la ∧ LevelAgrees s .b lb ∧
      execStat s = .next { s with
        rdata := (statusView s la lb).toNat
        draws := s.draws + s.readDraws s.drv.a + s.readDraws s.drv.b } := by
  obtain ⟨ha, hn⟩ := readLevel_spec .a s
  generalize hd : s.draws + s.readDraws (s.drv.get .a) = n at hn
  obtain ⟨hb, hm⟩ := readLevel_spec .b { s with draws := n }
  refine ⟨_, (readLevel .b { s with draws := n }).1, ha, hb, ?_⟩
  rw [show s.draws + s.readDraws s.drv.a = n from hd]
  simp only [execStat, hn, hm]
  rfl

/-- What makes a source eligible (41_service.md R75). -/
theorem eligible_spec {s : State} {x : Src} (h : s.eligible x = true) :
    s.pend.get x = true ∧ s.en.get x = true ∧ s.phase.get x = .idle ∧
      ∀ y, s.stack.getLast? = some y → s.pre x < s.pre y := by
  simp only [State.eligible, Bool.and_eq_true, decide_eq_true_eq, State.mayEnter, State.top] at h
  obtain ⟨⟨⟨h1, h2⟩, h3⟩, h4⟩ := h
  refine ⟨h1, h2, h3, fun y hy => ?_⟩
  simpa [hy] using h4

/-- A granted source is eligible. -/
theorem grantee_eligible {s : State} {x : Src} (h : s.grantee = some x) : s.eligible x = true := by
  unfold State.grantee at h
  cases ha : s.eligible .a <;> cases hb : s.eligible .b <;> simp only [ha, hb] at h
  · cases h
  · cases h; exact hb
  · cases h; exact ha
  · split at h <;> cases h
    · exact ha
    · exact hb

/-- No source is granted exactly when none is eligible. -/
theorem grantee_none {s : State} : s.grantee = none ↔ ∀ x, s.eligible x = false := by
  constructor
  · intro h x
    unfold State.grantee at h
    cases x <;> cases ha : s.eligible .a <;> cases hb : s.eligible .b <;>
      simp only [ha, hb] at h ⊢ <;> first | trivial | (split at h <;> cases h)
  · intro h
    simp [State.grantee, h]

/-- The order of keys, spelled out (41_service.md R74). -/
theorem keyLt_iff (k l : Key) : keyLt k l = true ↔
    k.pre < l.pre ∨ (k.pre = l.pre ∧ (k.sub < l.sub ∨ (k.sub = l.sub ∧ k.idx < l.idx))) := by
  simp [keyLt]

theorem statusView_lt (s : State) (la lb : Bool) : (statusView s la lb).toNat < 2 ^ s.countW := by
  have h := (statusView s la lb).isLt
  have : 2 ^ 12 ≤ 2 ^ s.countW := by
    apply Nat.pow_le_pow_right (by decide)
    unfold State.countW Params.countW
    omega
  omega

end Sys2Proof.Machine
end

