-- ==== Sys2Proof/Laws/Step.lean ====
section
/-! SUPPORT. What one step can do, said once: which agent step it is, the state it is taken from, and
the state it leaves. Every claim about steps is derived from `step_next`. -/

namespace Sys2Proof.Machine

/-- The step `e`, taken from `s`, leaves `t`. -/
inductive Took : Event → State → State → Prop where
  | drive (l : Src) (v : Drive) (s : State) : Took (.drive l v) s (driveLine l v s)
  | grant (x : Src) (s : State) (h : s.grantee = some x) : Took .grant s (enterService x s)
  | sample (x : Src) (s : State) (h : s.maySample x = true) : Took (.sample x) s (takeSample x s)
  | commit (x : Src) (s : State) (h : s.mayCommit x = true) :
      Took (.commit x) s (leaveService x (addDelta x s))
  | command (w : CmdWord) (i : Instr) (s t : State) (hw : decode w = .ok i)
      (h : exec i s = .next t) : Took (.host w) s t
  | illegal (w : CmdWord) (e : DecodeError) (s : State) (hw : decode w = .error e) :
      Took (.host w) s (raiseFault .illegalCmd s)
  | reset (s : State) : Took .reset s (resetBlock s)

theorem agentStep_next {e : Event} {s t : State} (h : agentStep e s = .next t) : Took e s t := by
  cases e with
  | drive l v => cases h; exact .drive l v s
  | grant =>
    simp only [agentStep, grantStep] at h
    split at h
    · next x hx => cases h; exact .grant x s hx
    · cases h
  | sample x =>
    simp only [agentStep, sampleStep] at h
    split at h
    · next hx => cases h; exact .sample x s hx
    · cases h
  | commit x =>
    simp only [agentStep, commitStep] at h
    split at h
    · next hx => cases h; exact .commit x s hx
    · cases h
  | host w =>
    simp only [agentStep, hostStep] at h
    cases hw : decode w with
    | ok i => simp only [hw] at h; exact .command w i s t hw h
    | error e => simp only [hw, illegalCommand] at h; cases h; exact .illegal w e s hw
  | reset => cases h; exact .reset s

theorem step_eq {s : State} {e : Event} {s0 : State} (h : s.chosen = some (e, s0)) :
    step s = agentStep e s0 := by
  unfold step chosenStep
  rw [h]

theorem step_none {s : State} (h : s.chosen = none) : step s = .fault .quiescent := by
  simp only [step, chosenStep, h]

theorem step_line {s : State} {e : Event} {rest : List Event} (h : s.script = e :: rest) :
    step s = agentStep e { s with script := rest } := by
  apply step_eq
  simp only [State.chosen, h]

theorem channelStep_isInternal {s : State} {e : Event} (h : s.channelStep = some e) :
    e.isInternal = true := by
  unfold State.channelStep at h
  split at h
  · cases h
  · split at h <;> cases h <;> rfl

/-- Where an agent step comes from: the script's first line, or, with no line left, an internal step,
which may have cost the draw that chose it. -/
theorem chosen_cases {s : State} {e : Event} {s0 : State} (h : s.chosen = some (e, s0)) :
    (∃ rest, s.script = e :: rest ∧ s0 = { s with script := rest }) ∨
    (s.script = [] ∧ e.isInternal = true ∧ s0 = { s with draws := s.draws + s.choiceDraws }) := by
  unfold State.chosen at h
  split at h
  · next e' rest hs => cases h; exact .inl ⟨rest, hs, rfl⟩
  · next hs =>
    refine .inr ⟨hs, ?_⟩
    unfold State.internalChoice at h
    unfold State.choiceDraws
    split at h
    · cases h
    · next hg hc => cases h; exact ⟨rfl, by simp [hc]⟩
    · next hg hc => cases h; exact ⟨channelStep_isInternal hc, by simp [hg]⟩
    · next hg hc =>
      cases h
      refine ⟨?_, by simp [hs, hg, hc]⟩
      split
      · rfl
      · exact channelStep_isInternal hc

/-- The state that the next agent step is taken from: the line used up, the choice's draw counted. -/
def State.taken (s : State) : State :=
  { s with script := s.script.tail, draws := s.draws + s.choiceDraws }

@[simp] theorem taken_params (s : State) : s.taken.params = s.params := rfl
@[simp] theorem taken_count (s : State) : s.taken.count = s.count := rfl
@[simp] theorem taken_rdata (s : State) : s.taken.rdata = s.rdata := rfl
@[simp] theorem taken_pend (s : State) : s.taken.pend = s.pend := rfl
@[simp] theorem taken_en (s : State) : s.taken.en = s.en := rfl
@[simp] theorem taken_armed (s : State) : s.taken.armed = s.armed := rfl
@[simp] theorem taken_prio (s : State) : s.taken.prio = s.prio := rfl
@[simp] theorem taken_phase (s : State) : s.taken.phase = s.phase := rfl
@[simp] theorem taken_delta (s : State) : s.taken.delta = s.delta := rfl
@[simp] theorem taken_stack (s : State) : s.taken.stack = s.stack := rfl
@[simp] theorem taken_err (s : State) : s.taken.err = s.err := rfl
@[simp] theorem taken_errcode (s : State) : s.taken.errcode = s.errcode := rfl
@[simp] theorem taken_drv (s : State) : s.taken.drv = s.drv := rfl
@[simp] theorem taken_faulted (s : State) : s.taken.faulted = s.faulted := rfl
@[simp] theorem taken_draws (s : State) : s.taken.draws = s.draws + s.choiceDraws := rfl
@[simp] theorem taken_script (s : State) : s.taken.script = s.script.tail := rfl
@[simp] theorem taken_readDraws (s : State) (d : Drive) : s.taken.readDraws d = s.readDraws d := rfl

theorem choiceDraws_line {s : State} (h : s.script ≠ []) : s.choiceDraws = 0 :=
  if_neg fun hc => h hc.1

/-- The next agent step, taken from `s.taken`; only an internal step may come without a line. -/
theorem chosen_taken {s : State} {e : Event} (h : s.nextEvent = some e) :
    s.chosen = some (e, s.taken) ∧
      (s.script = e :: s.script.tail ∨ (s.script = [] ∧ e.isInternal = true)) := by
  unfold State.nextEvent at h
  cases hc : s.chosen with
  | none => rw [hc] at h; cases h
  | some c =>
    obtain ⟨e', s0⟩ := c
    rw [hc] at h
    cases h
    rcases chosen_cases hc with ⟨rest, hs, rfl⟩ | ⟨hs, hi, rfl⟩
    · refine ⟨?_, .inl (by rw [hs]; rfl)⟩
      rw [State.taken, choiceDraws_line (by rw [hs]; simp), hs]
      rfl
    · exact ⟨by rw [State.taken, hs, List.tail_nil, ← hs], .inr ⟨hs, hi⟩⟩

/-- The machine's step is the next agent step, taken from `s.taken`. -/
theorem step_taken {s : State} {e : Event} (h : s.nextEvent = some e) :
    step s = agentStep e s.taken := step_eq (chosen_taken h).1

/-- Everything a step that goes on can do: its agent step, taken from the machine's state with the
line used up and the choice's draw counted. Any but an internal step is the script's first line. -/
theorem step_next {s t : State} (h : step s = .next t) :
    ∃ e, s.nextEvent = some e ∧ Took e s.taken t ∧
      (e.isInternal = false → s.choiceDraws = 0 ∧ s.script = e :: s.script.tail) := by
  cases hc : s.chosen with
  | none => rw [step_none hc] at h; cases h
  | some c =>
    have he : s.nextEvent = some c.1 := by simp [State.nextEvent, hc]
    rw [step_taken he] at h
    refine ⟨c.1, he, agentStep_next h, fun hi => ?_⟩
    rcases (chosen_taken he).2 with hs | ⟨_, hi'⟩
    · exact ⟨choiceDraws_line (by rw [hs]; simp), hs⟩
    · rw [hi] at hi'; cases hi'

/-- The machine's next step when a line is left. -/
theorem nextEvent_line {s : State} {e : Event} {rest : List Event} (h : s.script = e :: rest) :
    s.nextEvent = some e := by
  simp [State.nextEvent, State.chosen, h]

section Lines
variable {s : State} {rest : List Event}

theorem step_grant (h : s.script = .grant :: rest) :
    step s = grantStep { s with script := rest } := step_line h

theorem step_sample {x : Src} (h : s.script = .sample x :: rest) :
    step s = sampleStep x { s with script := rest } := step_line h

theorem step_commit {x : Src} (h : s.script = .commit x :: rest) :
    step s = commitStep x { s with script := rest } := step_line h

theorem step_drive {l : Src} {v : Drive} (h : s.script = .drive l v :: rest) :
    step s = .next (driveLine l v { s with script := rest }) := step_line h

theorem step_reset (h : s.script = .reset :: rest) :
    step s = .next (resetBlock { s with script := rest }) := step_line h

theorem step_illegal {w : CmdWord} {e : DecodeError} (h : s.script = .host w :: rest)
    (hw : decode w = .error e) :
    step s = .next (raiseFault .illegalCmd { s with script := rest }) := by
  rw [step_line h]
  simp only [agentStep, hostStep, hw, illegalCommand]

theorem grantStep_some {x : Src} (h : s.grantee = some x) : grantStep s = .next (enterService x s) := by
  simp only [grantStep, h]

theorem maySample_iff {x : Src} :
    s.maySample x = true ↔ s.stack.getLast? = some x ∧ s.phase.get x = .granted := by
  rw [State.maySample, Bool.and_eq_true, decide_eq_true_iff, decide_eq_true_iff]
  rfl

theorem mayCommit_iff {x : Src} :
    s.mayCommit x = true ↔ s.stack.getLast? = some x ∧ s.phase.get x = .sampled := by
  rw [State.mayCommit, Bool.and_eq_true, decide_eq_true_iff, decide_eq_true_iff]
  rfl

/-- A GRANT line with an eligible source goes on. -/
theorem step_grant_next {x : Src} (h : s.script = .grant :: rest) (hx : s.grantee = some x) :
    step s = .next (enterService x { s with script := rest }) := by
  rw [step_grant h]
  exact grantStep_some hx

/-- A SAMPLE line of the channel on top goes on. -/
theorem step_sample_next {x : Src} (h : s.script = .sample x :: rest)
    (h1 : s.stack.getLast? = some x) (h2 : s.phase.get x = .granted) :
    step s = .next (takeSample x { s with script := rest }) := by
  rw [step_sample h]
  exact if_pos (maySample_iff.mpr ⟨h1, h2⟩)

/-- A COMMIT line of the channel on top goes on. -/
theorem step_commit_next {x : Src} (h : s.script = .commit x :: rest)
    (h1 : s.stack.getLast? = some x) (h2 : s.phase.get x = .sampled) :
    step s = .next (leaveService x (addDelta x { s with script := rest })) := by
  rw [step_commit h]
  exact if_pos (mayCommit_iff.mpr ⟨h1, h2⟩)

/-- A HOST line with a legal word runs its command. -/
theorem step_command {w : CmdWord} {i : Instr} (h : s.script = .host w :: rest)
    (hw : decode w = .ok i) : step s = exec i { s with script := rest } := by
  rw [step_line h]
  simp only [agentStep, hostStep, hw]

end Lines

/-- The meanings of the host commands: each answers a next state, one of these. -/
theorem exec_cases (i : Instr) (s : State) :
    (i = .nop ∧ exec i s = .next (respond 0 s)) ∨
    (∃ pa pb, i = .init pa pb ∧ s.stack = [] ∧ exec i s = .next (respond 0 (armBlock pa pb s))) ∨
    (∃ pa pb, i = .init pa pb ∧ s.stack ≠ [] ∧ exec i s = .next (raiseFault .initActive s)) ∨
    (i = .take ∧ exec i s = .next (respond (patternN s.countW s.count) { s with count := 0 })) ∨
    (∃ ea eb, i = .seten ea eb ∧ exec i s = .next (respond 0 { s with en := ⟨ea, eb⟩ })) ∨
    (∃ la lb, i = .stat ∧ LevelAgrees s .a la ∧ LevelAgrees s .b lb ∧
      exec i s = .next { s with
        rdata := (statusView s la lb).toNat
        draws := s.draws + s.readDraws s.drv.a + s.readDraws s.drv.b }) := by
  cases i with
  | nop => exact .inl ⟨rfl, rfl⟩
  | init pa pb =>
    by_cases h : s.stack = []
    · exact .inr (.inl ⟨pa, pb, rfl, h, by simp [exec, execInit, h]⟩)
    · exact .inr (.inr (.inl ⟨pa, pb, rfl, h, by simp [exec, execInit, h]⟩))
  | take => exact .inr (.inr (.inr (.inl ⟨rfl, rfl⟩)))
  | seten ea eb => exact .inr (.inr (.inr (.inr (.inl ⟨ea, eb, rfl, rfl⟩))))
  | stat =>
    obtain ⟨la, lb, ha, hb, he⟩ := execStat_spec s
    exact .inr (.inr (.inr (.inr (.inr ⟨la, lb, rfl, ha, hb, he⟩))))

theorem exec_init_idle {s : State} (h : s.stack = []) (pa pb : BitVec 4) :
    exec (.init pa pb) s = .next (respond 0 (armBlock pa pb s)) := if_pos h

theorem exec_init_busy {s : State} (h : s.stack ≠ []) (pa pb : BitVec 4) :
    exec (.init pa pb) s = .next (raiseFault .initActive s) := if_neg h

end Sys2Proof.Machine
end

