-- ==== Sys2Proof/Laws/Run.lean ====
section
/-! SUPPORT. Runs of several steps, one step at a time, and the induction over a run that goes on; which
steps are enabled, and that an agent's step does not read the lines to come. -/

namespace Sys2Proof.Machine

theorem run_zero (s : State) : Host.Core.run core 0 s = .next s := rfl

theorem run_next {s u : State} (h : step s = .next u) (k : Nat) :
    Host.Core.run core (k + 1) s = Host.Core.run core k u := by
  simp only [Host.Core.run, show core.step s = .next u from h]

/-- A run that goes on for `k + 1` steps takes a step and goes on for `k`. -/
theorem run_succ_cases {k : Nat} {s t : State} (h : Host.Core.run core (k + 1) s = .next t) :
    ∃ u, step s = .next u ∧ Host.Core.run core k u = .next t := by
  simp only [Host.Core.run] at h
  cases hs : step s with
  | next u => rw [show core.step s = .next u from hs] at h; exact ⟨u, rfl, h⟩
  | fault r => rw [show core.step s = .fault r from hs] at h; cases h
  | refused r => rw [show core.step s = .refused r from hs] at h; cases h

/-- What every step keeps holds after every run that goes on. -/
theorem run_keeps {P : State → Prop} (hP : ∀ s t, P s → step s = .next t → P t) :
    ∀ (k : Nat) (s t : State), P s → Host.Core.run core k s = .next t → P t
  | 0, s, t, h, hr => by cases hr; exact h
  | k + 1, s, t, h, hr => by
    obtain ⟨u, hu, hr⟩ := run_succ_cases hr
    exact run_keeps hP k u t (hP s u h hu) hr

theorem runSum_succ (f : State → Int) (k : Nat) {s u : State} (h : step s = .next u) :
    runSum f (k + 1) s = f s + runSum f k u := by
  simp only [runSum, h]

theorem runAvoids_succ (p : Event → Bool) (k : Nat) {s u : State} (h : step s = .next u) :
    runAvoids p (k + 1) s = (!s.nextIs p && runAvoids p k u) := by
  simp only [runAvoids, h]

theorem enables_iff {s : State} {e : Event} : s.enables e = true ↔ ∃ t, agentStep e s = .next t := by
  unfold State.enables
  cases agentStep e s <;> simp

theorem enables_grant {s : State} : s.enables .grant = true ↔ ∃ x, s.eligible x = true := by
  rw [enables_iff]
  constructor
  · rintro ⟨t, ht⟩
    cases agentStep_next ht with
    | grant x _ hx => exact ⟨x, grantee_eligible hx⟩
  · rintro ⟨x, hx⟩
    cases hg : s.grantee with
    | none => rw [grantee_none.mp hg x] at hx; cases hx
    | some y => exact ⟨_, grantStep_some hg⟩

theorem enables_sample {s : State} {x : Src} :
    s.enables (.sample x) = true ↔ s.stack.getLast? = some x ∧ s.phase.get x = .granted := by
  rw [enables_iff, ← maySample_iff]
  constructor
  · rintro ⟨t, ht⟩
    cases agentStep_next ht with
    | sample _ _ h => exact h
  · exact fun h => ⟨_, if_pos h⟩

theorem enables_commit {s : State} {x : Src} :
    s.enables (.commit x) = true ↔ s.stack.getLast? = some x ∧ s.phase.get x = .sampled := by
  rw [enables_iff, ← mayCommit_iff]
  constructor
  · rintro ⟨t, ht⟩
    cases agentStep_next ht with
    | commit _ _ h => exact h
  · exact fun h => ⟨_, if_pos h⟩

/-- ENV, HOST and RESET may step at any time. -/
theorem enables_input {s : State} {e : Event} (h : e.isInternal = false) : s.enables e = true := by
  rw [enables_iff]
  cases e with
  | drive => exact ⟨_, rfl⟩
  | grant => cases h
  | sample => cases h
  | commit => cases h
  | reset => exact ⟨_, rfl⟩
  | host w =>
    simp only [agentStep, hostStep]
    cases decode w with
    | error _ => exact ⟨_, rfl⟩
    | ok i =>
      rcases exec_cases i s with ⟨_, h⟩ | ⟨_, _, _, _, h⟩ | ⟨_, _, _, _, h⟩ | ⟨_, h⟩ | ⟨_, _, _, h⟩ |
        ⟨_, _, _, _, _, h⟩ <;> exact ⟨_, h⟩

/-- An agent's step neither reads nor writes the lines to come. -/
theorem agentStep_script {s t : State} {e : Event} (h : agentStep e s = .next t) (r : List Event) :
    agentStep e { s with script := r } = .next { t with script := r } := by
  cases e with
  | drive l v =>
    cases h
    show Host.Outcome.next (driveLine l v { s with script := r }) = _
    rw [driveLine_spec, driveLine_spec]
    rfl
  | grant =>
    cases agentStep_next h with
    | grant x _ hx => exact grantStep_some (s := { s with script := r }) hx
  | sample x =>
    cases agentStep_next h with
    | sample _ _ hx => exact if_pos hx
  | commit x =>
    cases agentStep_next h with
    | commit _ _ hx => exact if_pos hx
  | reset => cases h; rfl
  | host w =>
    simp only [agentStep, hostStep] at h ⊢
    cases hw : decode w with
    | error _ => simp only [hw] at h ⊢; cases h; rfl
    | ok i =>
      simp only [hw] at h ⊢
      cases i with
      | init pa pb =>
        by_cases h0 : s.stack = []
        · rw [exec_init_idle h0] at h
          cases h
          exact exec_init_idle (s := { s with script := r }) h0 pa pb
        · rw [exec_init_busy h0] at h
          cases h
          exact exec_init_busy (s := { s with script := r }) h0 pa pb
      | _ => cases h; rfl

/-- A line's step, the lines to come put back as they are. -/
theorem step_script {s t : State} {e : Event} (h : agentStep e s = .next t) (r : List Event) :
    step { s with script := e :: r } = .next { t with script := r } := by
  rw [step_line rfl]
  exact agentStep_script h r

end Sys2Proof.Machine
end

