-- ==== Sys2Proof/Machine/Bus.lean ====
section
/-! DEFINITION. The ports on a platform's byte-addressed bus (00_scope.md R10; 20_memory.md R41): how a
whole command or response word stands as bytes, by the open parameter `BUS_BYTE_ORDER`. This is
outside the block: no step reads it. -/

namespace Sys2Proof.Machine

/-- `k` bytes of `v`, the least significant first. -/
def leBytes : Nat → Nat → List (BitVec 8)
  | 0, _ => []
  | k + 1, v => BitVec.ofNat 8 v :: leBytes k (v / 256)

/-- The number that bytes denote, the least significant first. -/
def leValue : List (BitVec 8) → Nat
  | [] => 0
  | b :: bs => b.toNat + 256 * leValue bs

/-- `k` bytes of `v` in the order given, lowest address first. -/
def busBytes (o : BusByteOrder) (k v : Nat) : List (BitVec 8) :=
  match o with
  | .little => leBytes k v
  | .big => (leBytes k v).reverse

/-- The number that bytes in the order given denote. -/
def busValue (o : BusByteOrder) (bs : List (BitVec 8)) : Nat :=
  match o with
  | .little => leValue bs
  | .big => leValue bs.reverse

/-- The HOST step that bytes written to the command port stand for: two of them, one whole command word
(20_memory.md R41, R42). No bus or another number of bytes presents no word. -/
def busCommand (p : Params) (bs : List (BitVec 8)) : Option Event :=
  match p.busOrder with
  | some o => if bs.length = 2 then some (.host (BitVec.ofNat 16 (busValue o bs))) else none
  | none => none

/-- How many bytes hold a response word: the fewest, any bits left over reading 0. DESIGN CHOICE
(safe), notes/assumptions/15.md. -/
def responseBytes (p : Params) : Nat := (p.countW + 7) / 8

/-- The bytes of RDATA on the bus (20_memory.md R41, R42). -/
def busResponse (s : State) : Option (List (BitVec 8)) :=
  s.params.busOrder.map (fun o => busBytes o (responseBytes s.params) s.rdata)

end Sys2Proof.Machine
end

