-- ==== Sys2Proof/Laws/Bus.lean ====
section
/-! SUPPORT. The bytes of a port under every byte order: whole words pass unchanged, and no step of the
block depends on the order (20_memory.md R41). -/

namespace Sys2Proof.Machine

theorem leBytes_length (k v : Nat) : (leBytes k v).length = k := by
  induction k generalizing v with
  | zero => rfl
  | succ k ih => rw [leBytes, List.length_cons, ih]

theorem busBytes_length (o : BusByteOrder) (k v : Nat) : (busBytes o k v).length = k := by
  cases o <;> simp [busBytes, leBytes_length]

theorem leValue_leBytes (k v : Nat) : leValue (leBytes k v) = v % 256 ^ k := by
  induction k generalizing v with
  | zero => simp [leBytes, leValue, Nat.mod_one]
  | succ k ih =>
    rw [leBytes, leValue, ih, BitVec.toNat_ofNat, show 256 ^ (k + 1) = 256 * 256 ^ k from Nat.pow_succ',
      Nat.mod_mul]

/-- Bytes of a word read back as the word, in either order. -/
theorem busValue_busBytes (o : BusByteOrder) (k v : Nat) :
    busValue o (busBytes o k v) = v % 256 ^ k := by
  cases o <;> simp [busValue, busBytes, leValue_leBytes]

/-- A command word written in the bus's byte order is presented whole. -/
theorem busCommand_word {p : Params} {o : BusByteOrder} (h : p.busOrder = some o) (w : CmdWord) :
    busCommand p (busBytes o 2 w.toNat) = some (.host w) := by
  simp only [busCommand, h, busBytes_length, busValue_busBytes, if_true]
  rw [Nat.mod_eq_of_lt (show w.toNat < 256 ^ 2 from w.isLt), BitVec.ofNat_toNat, BitVec.setWidth_eq]

/-- The bytes of a response read back as RDATA. -/
theorem busResponse_value {s : State} {o : BusByteOrder} (h : s.params.busOrder = some o)
    (hr : s.rdata < 2 ^ s.countW) :
    ∃ bs, busResponse s = some bs ∧ busValue o bs = s.rdata := by
  refine ⟨_, by rw [busResponse, h]; rfl, ?_⟩
  rw [busValue_busBytes, Nat.mod_eq_of_lt]
  refine Nat.lt_of_lt_of_le hr ?_
  rw [show 256 = 2 ^ 8 from rfl, ← Nat.pow_mul]
  exact Nat.pow_le_pow_right (by decide) (by unfold State.countW responseBytes; omega)

/-- The state with another byte order on the platform's bus. -/
def State.withBusOrder (s : State) (o : Option BusByteOrder) : State :=
  { s with params := { s.params with busOrder := o } }

/-- An agent's step neither reads nor writes `BUS_BYTE_ORDER`. -/
theorem agentStep_busOrder {s t : State} {e : Event} (h : agentStep e s = .next t)
    (o : Option BusByteOrder) : agentStep e (s.withBusOrder o) = .next (t.withBusOrder o) := by
  cases agentStep_next h with
  | drive l v =>
    show Host.Outcome.next (driveLine l v (s.withBusOrder o)) = _
    rw [driveLine_spec, driveLine_spec]
    rfl
  | grant x _ hx => exact grantStep_some (s := s.withBusOrder o) hx
  | sample _ _ hx => exact if_pos hx
  | commit _ _ hx => exact if_pos hx
  | reset => rfl
  | illegal w _ _ hw => simp only [agentStep, hostStep, hw]; rfl
  | command w i _ _ hw hx =>
    simp only [agentStep, hostStep, hw]
    cases i with
    | init pa pb =>
      by_cases h0 : s.stack = []
      · rw [exec_init_idle h0] at hx
        cases hx
        exact exec_init_idle (s := s.withBusOrder o) h0 pa pb
      · rw [exec_init_busy h0] at hx
        cases hx
        exact exec_init_busy (s := s.withBusOrder o) h0 pa pb
    | _ => cases hx; rfl

/-- The step of the machine neither reads nor writes `BUS_BYTE_ORDER`. -/
theorem step_busOrder {s t : State} (h : step s = .next t) (o : Option BusByteOrder) :
    step (s.withBusOrder o) = .next (t.withBusOrder o) := by
  obtain ⟨e, he, -, -⟩ := step_next h
  rw [step_taken he] at h
  have hc : (s.withBusOrder o).nextEvent = s.nextEvent := by
    unfold State.nextEvent State.chosen State.internalChoice
    simp only [show (s.withBusOrder o).script = s.script from rfl,
      show (s.withBusOrder o).grantee = s.grantee from rfl,
      show (s.withBusOrder o).channelStep = s.channelStep from rfl]
    cases s.script <;> cases s.grantee <;> cases s.channelStep <;> rfl
  rw [step_taken (hc.trans he)]
  exact agentStep_busOrder h o

end Sys2Proof.Machine
end

