-- ==== Sys2Proof/Laws/Decode.lean ====
section
/-! SUPPORT. The decoder and the encoder in terms of the word's number, so that claims about words
are linear arithmetic. -/

namespace Sys2Proof

theorem opField_toNat (w : CmdWord) : (opField w).toNat = w.toNat / 4096 % 16 := by
  simp [opField, BitVec.extractLsb'_toNat, Nat.shiftRight_eq_div_pow]

theorem argField_toNat (w : CmdWord) : (argField w).toNat = w.toNat % 4096 := by
  simp [argField, BitVec.extractLsb'_toNat]

theorem paField_toNat (w : CmdWord) : (paField w).toNat = w.toNat % 16 := by
  simp [paField, BitVec.extractLsb'_toNat]

theorem pbField_toNat (w : CmdWord) : (pbField w).toNat = w.toNat / 16 % 16 := by
  simp [pbField, BitVec.extractLsb'_toNat, Nat.shiftRight_eq_div_pow]

theorem initRsv_toNat (w : CmdWord) : (initRsv w).toNat = w.toNat / 256 % 16 := by
  simp [initRsv, BitVec.extractLsb'_toNat, Nat.shiftRight_eq_div_pow]

theorem setenRsv_toNat (w : CmdWord) : (setenRsv w).toNat = w.toNat / 4 % 1024 := by
  simp [setenRsv, BitVec.extractLsb'_toNat, Nat.shiftRight_eq_div_pow]

theorem eaField_eq (w : CmdWord) : eaField w = decide (w.toNat % 2 = 1) := by
  simp [eaField, BitVec.getLsbD, Nat.testBit_eq_decide_div_mod_eq]

theorem ebField_eq (w : CmdWord) : ebField w = decide (w.toNat / 2 % 2 = 1) := by
  simp [ebField, BitVec.getLsbD, Nat.testBit_eq_decide_div_mod_eq]

theorem hit_whole (p w : CmdWord) :
    OpRow.hit { pattern := p, mask := 0xFFFF#16 } w = decide (w.toNat = p.toNat) := by
  have : (0xFFFF#16 : CmdWord) = BitVec.allOnes 16 := by decide
  simp only [OpRow.hit, this, BitVec.and_allOnes, BitVec.toNat_inj]

theorem hit_nop (w : CmdWord) : nopRow.hit w = decide (w.toNat = 0) := hit_whole _ w

theorem hit_take (w : CmdWord) : takeRow.hit w = decide (w.toNat = 8192) := hit_whole _ w

theorem hit_stat (w : CmdWord) : statRow.hit w = decide (w.toNat = 16384) := hit_whole _ w

/-- A mask that keeps the bits from `k` up compares the number above bit `k`. -/
theorem and_high_eq (k : Nat) (m p w : CmdWord)
    (hm : ∀ i < 16, m.getLsbD i = decide (k ≤ i)) (hp : ∀ i < 16, i < k → p.getLsbD i = false) :
    (w &&& m = p) ↔ w.toNat / 2 ^ k = p.toNat / 2 ^ k := by
  constructor
  · intro h
    apply Nat.eq_of_testBit_eq
    intro j
    simp only [← Nat.shiftRight_eq_div_pow, Nat.testBit_shiftRight]
    by_cases hj : k + j < 16
    · have := congrArg (fun v : CmdWord => v.getLsbD (k + j)) h
      simp only [BitVec.getLsbD_and, hm _ hj] at this
      simpa [BitVec.getLsbD] using this
    · have h1 := BitVec.getLsbD_of_ge w (k + j) (by omega)
      have h2 := BitVec.getLsbD_of_ge p (k + j) (by omega)
      simp only [BitVec.getLsbD] at h1 h2
      rw [h1, h2]
  · intro h
    apply BitVec.eq_of_getLsbD_eq
    intro i hi
    rw [BitVec.getLsbD_and, hm i hi]
    by_cases hk : k ≤ i
    · have := congrArg (fun v : Nat => v.testBit (i - k)) h
      simp only [← Nat.shiftRight_eq_div_pow, Nat.testBit_shiftRight, Nat.add_sub_cancel' hk] at this
      simpa [BitVec.getLsbD, hk] using this
    · simp [hk, hp i hi (by omega)]

theorem hit_init (w : CmdWord) : initRow.hit w = decide (w.toNat / 256 = 16) := by
  unfold OpRow.hit initRow
  exact decide_eq_decide.mpr (and_high_eq 8 _ _ w (by decide) (by decide))

theorem hit_seten (w : CmdWord) : setenRow.hit w = decide (w.toNat / 4 = 3072) := by
  unfold OpRow.hit setenRow
  exact decide_eq_decide.mpr (and_high_eq 2 _ _ w (by decide) (by decide))

/-- The decoder by the word's number. -/
theorem decode_eq (w : CmdWord) : decode w =
    if w.toNat = 0 then .ok .nop
    else if w.toNat / 256 = 16 then .ok (.init (paField w) (pbField w))
    else if w.toNat = 8192 then .ok .take
    else if w.toNat / 4 = 3072 then .ok (.seten (eaField w) (ebField w))
    else if w.toNat = 16384 then .ok .stat
    else if 5 ≤ w.toNat / 4096 then .error .reservedOpcode
    else .error .reservedBits := by
  have hw := w.isLt
  have h5 : (5 ≤ w.toNat / 4096 % 16) ↔ (5 ≤ w.toNat / 4096) := by omega
  simp only [decode, hit_nop, hit_init, hit_take, hit_seten, hit_stat, opReserved, opField_toNat,
    decide_eq_true_eq, h5]

theorem encode_init_toNat (pa pb : BitVec 4) :
    (encode (.init pa pb)).toNat = 4096 + 16 * pb.toNat + pa.toNat := by
  revert pa pb
  decide

theorem encode_seten_toNat (ea eb : Bool) :
    (encode (.seten ea eb)).toNat = 12288 + 2 * eb.toNat + ea.toNat := by
  revert ea eb
  decide

end Sys2Proof
end

