-- ==== Sys2Proof/Laws/PerInstr.lean ====
section
/-! SUPPORT. Per host command: it is well-formed, and its word matches its own row of the opcode map
and carries its operands where 30_encoding.md R55 puts them. -/

namespace Sys2Proof.Laws.Encoding

/-- The command's word hits its own row and is a well-formed word, and its operands fit. -/
def Statement (i : Instr) : Prop :=
  i.wf = true ∧ i.row.hit (encode i) = true ∧ CmdWord.wf (encode i) = true

theorem nop : Statement .nop := by
  unfold Statement
  decide

theorem init (pa pb : BitVec 4) : Statement (.init pa pb) := by
  revert pa pb
  unfold Statement
  decide

theorem take : Statement .take := by
  unfold Statement
  decide

theorem seten (ea eb : Bool) : Statement (.seten ea eb) := by
  revert ea eb
  unfold Statement
  decide

theorem stat : Statement .stat := by
  unfold Statement
  decide

end Sys2Proof.Laws.Encoding
end

