-- ==== Sys2Proof/Tests/Slice0.lean ====
section
/-! SUPPORT. The model's own tests. Expected results come from the spec: its encodings written out bit
by bit, the vectors and traces of 95_test_vectors.md (named in each comment) and the rules' examples.
A test on fixed values is a check of the model, never a claim. The `hyp_` theorems show, for each
statement with hypotheses, a state and operands that meet them. -/

namespace Sys2Proof.Tests
open Sys2Proof.Machine

/-- The step goes on and the state it leaves has the property. -/
def goesOn (s : State) (p : State → Bool) : Bool :=
  match step s with
  | .next t => p t
  | .fault _ => false
  | .refused _ => false

/-- The step stops with this fault. -/
def stopsWith (s : State) (f : Fault) : Bool :=
  match step s with
  | .next _ => false
  | .fault g => decide (g = f)
  | .refused _ => false

/-- An idle block after `INIT 0.0, 0.1` with these lines to come. -/
def armed (script : List Event) : State :=
  { State.reset with
    armed := true, en := ⟨true, true⟩, prio := ⟨0x0#4, 0x1#4⟩, script := script }

/-- Channel A in service in the phase given, both lines driven low. -/
def inServiceA (ph : Phase) (script : List Event) : State :=
  { armed script with drv := ⟨.low, .low⟩, stack := [.a], phase := ⟨ph, .idle⟩ }

/-- B in service, sampled, A pending and more urgent (vector G7). -/
def nesting (script : List Event) : State :=
  { armed script with
    prio := ⟨0x0#4, 0x4#4⟩, pend := ⟨true, false⟩, stack := [.b], phase := ⟨.idle, .sampled⟩
    delta := ⟨.zero, .minus⟩ }

/-- Both sources pending on an idle block. -/
def bothPending (pa pb : BitVec 4) (script : List Event) : State :=
  { armed script with prio := ⟨pa, pb⟩, pend := ⟨true, true⟩ }

/-! ### Well-formedness: each check refuses an ill-formed term -/

theorem test_wf_refuses_reserved_opcode : CmdWord.wf 0x5000#16 = false := by decide
theorem test_wf_refuses_nop_arg : CmdWord.wf 0x0001#16 = false := by decide
theorem test_wf_refuses_init_rsv : CmdWord.wf 0x1100#16 = false := by decide
theorem test_wf_refuses_seten_rsv : CmdWord.wf 0x3004#16 = false := by decide
theorem test_wf_accepts_bounds :
    CmdWord.wf 0x10FF#16 = true ∧ CmdWord.wf 0x3003#16 = true := by decide
theorem test_wf_refuses_priority_number : (AsmLine.init (.num 16) (.num 0)).wf = false := by decide
theorem test_wf_refuses_priority_number_b : (AsmLine.init (.num 0) (.num 16)).wf = false := by decide
theorem test_wf_refuses_priority_pre : (AsmLine.init (.pair 4 0) (.num 0)).wf = false := by decide
theorem test_wf_refuses_priority_sub : (AsmLine.init (.pair 0 4) (.num 0)).wf = false := by decide
theorem test_wf_refuses_mask : (AsmLine.seten 4).wf = false := by decide
theorem test_wf_accepts_line : (AsmLine.init (.num 15) (.pair 3 3)).wf = true := by decide

/-! ### Decoding: each constructor by a word written bit by bit from 30_encoding.md R55 and R58 -/

theorem test_decode_nop : decode 0b0000000000000000#16 = .ok .nop := by decide
/-- OP 0001, RSV 0000, PB 0111, PA 1001. -/
theorem test_decode_init : decode 0b0001000001111001#16 = .ok (.init 0b1001#4 0b0111#4) := by decide
theorem test_decode_take : decode 0b0010000000000000#16 = .ok .take := by decide
/-- OP 0011, RSV zero, EB 0, EA 1. -/
theorem test_decode_seten_a : decode 0b0011000000000001#16 = .ok (.seten true false) := by decide
/-- OP 0011, RSV zero, EB 1, EA 0. -/
theorem test_decode_seten_b : decode 0b0011000000000010#16 = .ok (.seten false true) := by decide
theorem test_decode_stat : decode 0b0100000000000000#16 = .ok .stat := by decide
theorem test_decode_reserved_first : decode 0x5000#16 = .error .reservedOpcode := by decide
theorem test_decode_reserved_last : decode 0xFFFF#16 = .error .reservedOpcode := by decide
theorem test_decode_table : decodeTableWord 16 0x10A5 = some (.init 0x5#4 0xA#4) := by decide
theorem test_fetch_word :
    goesOn (State.reset.withFetchWord 16 0x10A5) (fun t => decide (t.prio = ⟨0x5#4, 0xA#4⟩)) = true := by
  decide

/-! ### Assembler (30_encoding.md R64 to R66) -/

theorem test_parse_init :
    parseLine ['I', 'N', 'I', 'T', ' ', '0', '.', '1', ',', ' ', '0', 'x', 'A', ';', 'c'] =
      some [.host 0x10A1#16] := by decide
theorem test_parse_seten : parseLine ['S', 'E', 'T', 'E', 'N', ' ', '3'] = some [.host 0x3003#16] := by
  decide
theorem test_parse_drive :
    parseLine ['D', 'R', 'I', 'V', 'E', ' ', 'A', ' ', 'Z'] = some [.drive .a .z] := by decide
theorem test_parse_service :
    parseLine ['s', 'e', 'r', 'v', 'i', 'c', 'e', ' ', 'B'] =
      some [.grant, .sample .b, .commit .b] := by decide
/-- A comment-only line is no step: the model's choice (notes/assumptions/16.md). -/
theorem test_parse_comment_only : parseLine [' ', ';', 'c'] = some [] := by decide
theorem test_parse_out_of_range : parseLine ['S', 'E', 'T', 'E', 'N', ' ', '4'] = none := by decide

/-! ### Edge detection (95_test_vectors.md section 2.1) -/

/-- E1. -/
theorem test_edge_pullup :
    goesOn (armed [.drive .a .low]) (fun t => t.pend.a && !t.pend.b) = true := by decide
/-- E3. -/
theorem test_edge_rising :
    goesOn { armed [.drive .a .z] with drv := ⟨.low, .z⟩ } (fun t => !t.pend.a) = true := by decide
/-- E8. -/
theorem test_edge_unarmed :
    goesOn { State.reset with drv := ⟨.high, .z⟩, script := [.drive .a .low] }
      (fun t => !t.pend.a) = true := by decide
/-- E10. -/
theorem test_edge_masked :
    goesOn { armed [.drive .a .low] with en := ⟨false, true⟩ } (fun t => t.pend.a) = true := by decide

/-! ### Direction mux (section 2.2) and counter (section 2.3) -/

/-- M1. -/
theorem test_sample_forward :
    goesOn (inServiceA .granted [.sample .a]) (fun t => decide (t.delta.a = .plus)) = true := by decide
/-- M3: A rose before SAMPLE. -/
theorem test_sample_reverify :
    goesOn { inServiceA .granted [.sample .a] with drv := ⟨.z, .low⟩ }
      (fun t => decide (t.delta.a = .zero ∧ t.phase.a = .sampled)) = true := by decide
/-- M5. -/
theorem test_sample_reverse :
    goesOn { armed [.sample .b] with drv := ⟨.low, .low⟩, stack := [.b], phase := ⟨.idle, .granted⟩ }
      (fun t => decide (t.delta.b = .minus)) = true := by decide
/-- K4. -/
theorem test_commit_wraps :
    goesOn { inServiceA .sampled [.commit .a] with count := 32767, delta := ⟨.plus, .zero⟩ }
      (fun t => decide (t.count = -32768 ∧ t.stack = [])) = true := by decide
/-- K7. -/
theorem test_commit_saturates :
    goesOn { inServiceA .sampled [.commit .a] with
      count := -32768, delta := ⟨.minus, .zero⟩, params := ⟨0, .saturate, none⟩ }
      (fun t => decide (t.count = -32768)) = true := by decide
/-- K9: COUNT_W = 24. -/
theorem test_commit_wide :
    goesOn { inServiceA .sampled [.commit .a] with
      count := 32767, delta := ⟨.plus, .zero⟩, params := ⟨8, .wrap, none⟩ }
      (fun t => decide (t.count = 32768)) = true := by decide

/-! ### Arbiter (section 2.4) -/

/-- G1. -/
theorem test_grant_a_first :
    goesOn (bothPending 0x0#4 0x1#4 [.grant])
      (fun t => decide (t.stack = [.a] ∧ t.pend = ⟨false, true⟩)) = true := by decide
/-- G2. -/
theorem test_grant_b_first :
    goesOn (bothPending 0x1#4 0x0#4 [.grant]) (fun t => decide (t.stack = [.b])) = true := by decide
/-- G3. -/
theorem test_grant_tie : goesOn (bothPending 0x5#4 0x5#4 [.grant])
    (fun t => decide (t.stack = [.a])) = true := by decide
/-- G4. -/
theorem test_grant_pre_beats_sub : goesOn (bothPending 0x4#4 0x3#4 [.grant])
    (fun t => decide (t.stack = [.b])) = true := by decide
/-- G6. -/
theorem test_grant_equal_pre_waits :
    stopsWith { inServiceA .sampled [.grant] with pend := ⟨false, true⟩ } .grantNotEnabled = true := by
  decide
/-- G7. -/
theorem test_grant_preempts :
    goesOn (nesting [.grant]) (fun t => decide (t.stack = [.b, .a])) = true := by decide
/-- G8. -/
theorem test_grant_no_reentry :
    stopsWith { inServiceA .granted [.grant] with pend := ⟨true, false⟩ } .grantNotEnabled = true := by
  decide
/-- G12: B is not on top. -/
theorem test_sample_not_on_top :
    stopsWith { nesting [.sample .b] with stack := [.b, .a], phase := ⟨.granted, .granted⟩ }
      (.sampleNotEnabled .b) = true := by decide
theorem test_commit_not_sampled :
    stopsWith (inServiceA .granted [.commit .a]) (.commitNotEnabled .a) = true := by decide

/-! ### Host commands (section 2.5) -/

/-- H1. -/
theorem test_nop : goesOn { armed [.host 0x0000#16] with rdata := 9, count := 4 }
    (fun t => decide (t.rdata = 0 ∧ t.count = 4)) = true := by decide
/-- H3. -/
theorem test_init : goesOn { State.reset with script := [.host 0x1010#16] }
    (fun t => decide (t.armed = true ∧ t.prio = ⟨0x0#4, 0x1#4⟩ ∧ t.en = ⟨true, true⟩)) = true := by
  decide
/-- H6. -/
theorem test_init_active : goesOn (inServiceA .granted [.host 0x1010#16])
    (fun t => decide (t.errcode = .initActive ∧ t.faulted = true ∧ t.stack = [.a])) = true := by decide
/-- H7. -/
theorem test_illegal_first : goesOn (inServiceA .granted [.host 0x1F10#16])
    (fun t => decide (t.errcode = .illegalCmd)) = true := by decide
/-- H9. -/
theorem test_take_negative : goesOn { armed [.host 0x2000#16] with count := -5 }
    (fun t => decide (t.rdata = 0xFFFB ∧ t.count = 0)) = true := by decide
/-- H10. -/
theorem test_take_least : goesOn { armed [.host 0x2000#16] with count := -32768 }
    (fun t => decide (t.rdata = 0x8000)) = true := by decide
/-- H12. -/
theorem test_seten : goesOn (armed [.host 0x3001#16])
    (fun t => decide (t.en = ⟨true, false⟩ ∧ t.rdata = 0)) = true := by decide
/-- H15. -/
theorem test_stat_idle : goesOn (armed [.host 0x4000#16]) (fun t => decide (t.rdata = 0x01F0)) = true := by
  decide
/-- Program 4, step 9: 0x0BC0. -/
theorem test_stat_after_fault : goesOn { armed [.host 0x4000#16] with
    drv := ⟨.low, .low⟩, err := true, errcode := .initActive }
    (fun t => decide (t.rdata = 0x0BC0)) = true := by decide
/-- H18. -/
theorem test_first_fault_kept : goesOn { armed [.host 0x5000#16] with
    err := true, errcode := .initActive, rdata := 7 }
    (fun t => decide (t.errcode = .initActive ∧ t.rdata = 0)) = true := by decide
/-- H19. -/
theorem test_illegal_keeps_count : goesOn { armed [.host 0x2001#16] with count := 3 }
    (fun t => decide (t.count = 3 ∧ t.errcode = .illegalCmd)) = true := by decide

/-! ### The ports on a byte-addressed bus (00_scope.md R10): the word 0x1040 in either byte order -/

theorem test_bus_little :
    busCommand ⟨0, .wrap, some .little⟩ [0x40#8, 0x10#8] = some (.host 0x1040#16) := by decide
theorem test_bus_big :
    busCommand ⟨0, .wrap, some .big⟩ [0x10#8, 0x40#8] = some (.host 0x1040#16) := by decide
theorem test_bus_whole_words : busCommand ⟨0, .wrap, some .big⟩ [0x10#8] = none := by decide
/-- COUNT_W = 20: three bytes, the upper four bits 0. -/
theorem test_bus_response :
    busResponse { State.reset with params := ⟨4, .wrap, some .big⟩, rdata := 0xABCDE } =
      some [0x0A#8, 0xBC#8, 0xDE#8] := by decide

/-! ### Reset and the end of a run -/

theorem test_reset_keeps_drives : goesOn { inServiceA .granted [.reset] with faulted := true, count := 8 }
    (fun t => decide (t.drv = ⟨.low, .low⟩ ∧ t.count = 0 ∧ t.stack = [] ∧ t.faulted = true)) = true := by
  decide
theorem test_quiescent_stops : stopsWith (armed []) .quiescent = true := by decide
theorem test_internal_step : goesOn (bothPending 0x0#4 0x1#4 []) (fun t => decide (t.stack = [.a])) = true := by
  decide

/-! ### Hypotheses are met -/

/-- OperandFieldLayout, EncodeOfDecode, StepRunsDecodedCommand: a word of each command; DecodeOfEncode:
a well-formed command of each kind. -/
theorem hyp_decodes :
    decode 0x0000#16 = .ok .nop ∧ decode 0x10F0#16 = .ok (.init 0x0#4 0xF#4) ∧
    decode 0x2000#16 = .ok .take ∧ decode 0x3002#16 = .ok (.seten false true) ∧
    decode 0x4000#16 = .ok .stat ∧ decodeTableWord 16 0x3002 = some (.seten false true) ∧
    (Instr.init 0xF#4 0x0#4).wf = true ∧ Instr.nop.wf = true ∧ Instr.take.wf = true ∧
    (Instr.seten true true).wf = true ∧ Instr.stat.wf = true := by decide

/-- IllegalWordFaults, InitArmsIdleBlock, SetenWritesEnables, NopOnlyResponds: the illegal words at
the boundary of each clause, and the legal words next to them. -/
theorem hyp_illegal_words :
    decode 0x5000#16 = .error .reservedOpcode ∧ decode 0x0001#16 = .error .reservedBits ∧
    decode 0x0FFF#16 = .error .reservedBits ∧ decode 0x1100#16 = .error .reservedBits ∧
    decode 0x2001#16 = .error .reservedBits ∧ decode 0x3004#16 = .error .reservedBits ∧
    decode 0x4001#16 = .error .reservedBits ∧ decode 0x4FFF#16 = .error .reservedBits ∧
    decode 0x10FF#16 = .ok (.init 0xF#4 0xF#4) ∧ decode 0x3003#16 = .ok (.seten true true) := by decide

/-- The lines that DisabledLinesStop, the drive, grant, sample, commit, host and reset statements
assume stand first in a script. -/
theorem hyp_lines :
    (armed [.host 0x5000#16]).script = .host 0x5000#16 :: [] ∧
    (armed [.drive .b .low]).script = .drive .b .low :: [] ∧
    (bothPending 0x0#4 0x1#4 [.grant]).script = .grant :: [] ∧
    (inServiceA .granted [.sample .a]).script = .sample .a :: [] ∧
    (inServiceA .sampled [.commit .a]).script = .commit .a :: [] ∧
    (armed [.reset]).script = .reset :: [] := by decide

/-- WriteAccessByStep, CountTouchedOnlyByCommitAndTake, ConfigurationStable, GrantTakesMostUrgent,
SimultaneousPendOrder, OnlyTopChannelSteps, SampleComputesDelta, CommitAddsDelta: each agent's step can
come next, of a line and with no line left, and go on. -/
theorem hyp_next_events :
    (armed [.drive .a .low]).nextEvent = some (.drive .a .low) ∧
    (bothPending 0x0#4 0x1#4 []).nextEvent = some .grant ∧
    (inServiceA .granted []).nextEvent = some (.sample .a) ∧
    (inServiceA .sampled []).nextEvent = some (.commit .a) ∧
    (bothPending 0x0#4 0x1#4 [.grant]).nextEvent = some .grant ∧
    (inServiceA .granted [.sample .a]).nextEvent = some (.sample .a) ∧
    (inServiceA .sampled [.commit .a]).nextEvent = some (.commit .a) ∧
    (armed [.host 0x2000#16]).nextEvent = some (.host 0x2000#16) ∧
    (armed [.reset]).nextEvent = some .reset ∧
    goesOn (bothPending 0x0#4 0x1#4 []) (fun _ => true) = true ∧
    goesOn (inServiceA .granted []) (fun _ => true) = true ∧
    goesOn (inServiceA .sampled []) (fun _ => true) = true ∧
    goesOn (armed [.drive .a .low]) (fun _ => true) = true ∧
    goesOn (armed [.host 0x1000#16]) (fun _ => true) = true ∧
    goesOn (armed [.reset]) (fun _ => true) = true ∧
    (armed [.drive .a .low]).nextIs Event.isHost = false ∧
    (armed [.drive .a .low]).nextIs Event.isReset = false ∧
    (armed [.drive .a .low]).nextIs Event.isCommit = false ∧
    (armed [.drive .a .low]).nextIs Event.isTake = false := by decide

/-- DisabledLinesStop: a state for each of its three clauses. -/
theorem hyp_disabled :
    (armed [.grant]).eligible .a = false ∧ (armed [.grant]).eligible .b = false ∧
    ¬ ((armed [.sample .a]).stack.getLast? = some .a ∧ (armed [.sample .a]).phase.get .a = .granted) ∧
    ¬ ((armed [.commit .a]).stack.getLast? = some .a ∧
      (armed [.commit .a]).phase.get .a = .sampled) := by decide

/-- InitArmsIdleBlock, InitFaultsDuringService, PriorityOperandsTakeEffect: STACK empty and not, with an
edge pending. -/
theorem hyp_init :
    (bothPending 0x0#4 0x1#4 []).stack = [] ∧ (inServiceA .granted []).stack ≠ [] := by decide

/-- TakeReturnsAndZeroes, TakeCommitOrders, CommitAddsDelta, MaskingHoldsGrantsOnly: a sampled channel on
top with COUNT in range, at both limits. -/
theorem hyp_sampled :
    (inServiceA .sampled [.host 0x2000#16, .commit .a, .host 0x2000#16]).stack.getLast? = some .a ∧
    (inServiceA .sampled []).phase.get .a = .sampled ∧
    InSint (inServiceA .sampled []).countW (inServiceA .sampled []).count ∧
    InSint (armed []).countW 32767 ∧ InSint (armed []).countW (-32768) ∧
    ({ inServiceA .sampled [] with en := ⟨false, false⟩ } : State).en = ⟨false, false⟩ := by decide

/-- TakeReturnsAndZeroes: its run of three lines goes on. -/
theorem hyp_take_commit_take :
    (match Host.Core.run core 3
        (inServiceA .sampled [.host 0x2000#16, .commit .a, .host 0x2000#16]) with
      | .next _ => true
      | .fault _ => false
      | .refused _ => false) = true := by decide

/-- SetenWritesEnables: a pending idle source that may enter, over an empty stack and by preemption. -/
theorem hyp_may_enter :
    (bothPending 0x0#4 0x1#4 []).pend.get .a = true ∧ (bothPending 0x0#4 0x1#4 []).phase.get .a = .idle ∧
    (nesting []).pend.get .a = true ∧ (nesting []).phase.get .a = .idle ∧
    (nesting []).stack.getLast? = some .b ∧ (nesting []).pre .a < (nesting []).pre .b := by decide

/-- ReadLevelOfLine, DetectionGatedByArmedAlone, DriveLatchesFallingEdge, StatIsIdempotent: a line of each
drive, armed and not; a masked source. -/
theorem hyp_levels :
    (inServiceA .granted []).drv.get .a = .low ∧
    ({ armed [] with drv := ⟨.high, .z⟩ } : State).drv.get .a = .high ∧
    (armed []).drv.get .a = .z ∧ (armed []).armed = true ∧
    State.reset.drv.get .a = .z ∧ State.reset.armed = false ∧ State.reset.en.get .a = false ∧
    goesOn { State.reset with script := [.drive .a .low] } (fun _ => true) = true ∧
    goesOn { armed [.drive .a .low] with en := ⟨false, false⟩ } (fun _ => true) = true := by decide

/-- PriorityKeyOrder, GrantTakesMostUrgent, SimultaneousPendOrder: eligible sources, alone, together under
each order, and over a running service. -/
theorem hyp_eligible :
    (bothPending 0x0#4 0x1#4 [.grant]).eligible .a = true ∧
    (bothPending 0x0#4 0x1#4 [.grant]).eligible .b = true ∧
    (bothPending 0x5#4 0x5#4 [.grant]).eligible .b = true ∧
    (bothPending 0x1#4 0x0#4 [.grant]).eligible .a = true ∧
    (nesting [.grant]).eligible .a = true ∧ (nesting [.grant]).stack.getLast? = some .b := by decide

/-- SampleComputesDelta, OnlyTopChannelSteps: a granted channel on top, for each source. -/
theorem hyp_granted :
    (inServiceA .granted [.sample .a]).stack.getLast? = some .a ∧
    (inServiceA .granted [.sample .a]).phase.get .a = .granted ∧
    ({ armed [.sample .b] with stack := [.b], phase := ⟨.idle, .granted⟩ } : State).stack.getLast? =
      some .b := by decide

/-- ServiceRunsToCompletion, EdgesMergeWhilePending: a source about to be granted with its service's
lines to come, alone and over a running service. -/
theorem hyp_service :
    (bothPending 0x0#4 0x1#4 (serviceLines .a)).grantee = some .a ∧
    (bothPending 0x0#4 0x1#4 (serviceLines .a)).armed = true ∧
    (bothPending 0x0#4 0x1#4 (serviceLines .a)).script = serviceLines .a ++ [] ∧
    (nesting (serviceLines .a)).grantee = some .a := by decide

/-- EdgesMergeWhilePending: an edge on a pending source, an edge in service, and the end of a service
with its source pending again, over an idle block. -/
theorem hyp_merge :
    (bothPending 0x0#4 0x1#4 [.drive .a .low]).pend.get .a = true ∧
    (bothPending 0x0#4 0x1#4 []).grantee = some .a ∧
    ({ inServiceA .granted [.drive .a .low] with drv := ⟨.z, .low⟩ } : State).drv.get .a ≠ .low ∧
    ({ inServiceA .sampled [.commit .a] with pend := ⟨true, false⟩ } : State).stack = [.a] ∧
    ({ inServiceA .sampled [.commit .a] with pend := ⟨true, false⟩ } : State).en.get .a = true := by
  decide

/-- A over the service of B that it preempted, sampled and pending again. -/
def nested (script : List Event) : State :=
  { nesting script with stack := [.b, .a], phase := ⟨.sampled, .granted⟩ }

/-- FaultKeepsFirstCode, FaultCausesComplete: a faulted state whose next step goes on, an illegal word
and an INIT that record a fault, and a RESET. -/
theorem hyp_faults :
    goesOn { armed [.drive .a .low] with err := true, errcode := .illegalCmd, faulted := true }
      (fun t => t.err) = true ∧
    goesOn (armed [.host 0x5000#16]) (fun t => t.err) = true ∧
    goesOn (inServiceA .granted [.host 0x1000#16])
      (fun t => t.err && decide (t.errcode = .initActive)) = true ∧
    (armed [.host 0x5000#16]).err = false ∧
    goesOn { armed [.reset] with err := true, errcode := .illegalCmd } (fun t => !t.err) = true := by
  decide

/-- The invariant of a concrete state, from checks that decide. -/
theorem inv_of {s : State}
    (h : ((∀ x ∈ [Src.a, Src.b], x ∈ s.stack ↔ s.phase.get x ≠ .idle) ∧ s.stack.Nodup ∧
      (∀ x ∈ [Src.a, Src.b], ∀ y ∈ [Src.a, Src.b], s.stack = [y, x] → s.pre x < s.pre y)) ∧
      InSint s.countW s.count ∧ s.rdata < 2 ^ s.countW ∧
      (s.armed = false → s.pend = ⟨false, false⟩ ∧ s.stack = [] ∧ s.count = 0) ∧
      (s.err = false ↔ s.errcode = .none) ∧ (s.err = true → s.faulted = true)) : s.Inv := by
  obtain ⟨⟨h1, h2, h3⟩, h4, h5, h6, h7, h8⟩ := h
  have all : ∀ x : Src, x ∈ [Src.a, Src.b] := fun x => by cases x <;> simp
  exact ⟨fun x => h1 x (all x), h2, fun y x => h3 x (all x) y (all y), h4, h5, h6, h7, h8⟩

/-- StepKeepsInv, QuiescentExactlyWhenNoStep, InternalRunReachesQuiescence: idle with no line left. -/
theorem hyp_inv_idle : (armed []).Inv ∧ (armed []).script = [] :=
  ⟨inv_of (by decide), by decide⟩

/-- InternalRunReachesQuiescence, EqualPreNeverNests, StepKeepsInv: both pending with equal `pre`, no
line left. -/
theorem hyp_inv_pending :
    (bothPending 0x0#4 0x1#4 []).Inv ∧
      (bothPending 0x0#4 0x1#4 []).pre .a = (bothPending 0x0#4 0x1#4 []).pre .b ∧
      goesOn (bothPending 0x0#4 0x1#4 []) (fun t => decide (t.pre .a = t.pre .b)) = true :=
  ⟨inv_of (by decide), by decide, by decide⟩

/-- NoReentry, SampleComputesDelta: in service and meeting the invariant, an edge to come. -/
theorem hyp_inv_service :
    ({ inServiceA .granted [.drive .a .low] with drv := ⟨.z, .low⟩ } : State).Inv ∧
      Src.a ∈ ({ inServiceA .granted [.drive .a .low] with drv := ⟨.z, .low⟩ } : State).stack :=
  ⟨inv_of (by decide), by decide⟩

/-- NoReentry: a preemption to come, meeting the invariant. -/
theorem hyp_inv_nesting :
    (nesting [.grant]).Inv ∧ (nesting [.grant]).nextEvent = some .grant ∧
      goesOn (nesting [.grant]) (fun _ => true) = true :=
  ⟨inv_of (by decide), by decide, by decide⟩

/-- EdgesMergeWhilePending: the end of a service over the one it preempted, meeting the invariant. -/
theorem hyp_inv_nested :
    (nested []).Inv ∧ (nested []).nextEvent = some (.commit .a) ∧
      (nested []).stack.getLast? = some .a ∧ (nested []).pend.get .a = true ∧
      goesOn (nested []) (fun t => t.eligible .a) = true :=
  ⟨inv_of (by decide), by decide, by decide, by decide, by decide⟩

/-- UnarmedBlockStaysQuiet, TakeReturnsAndZeroes: before INIT, in a state other than reset's. -/
theorem hyp_inv_unarmed :
    ({ State.reset with en := ⟨true, false⟩, rdata := 7, script := [.drive .a .low] } : State).Inv ∧
      (match Host.Core.run core 1
          ({ State.reset with en := ⟨true, false⟩, rdata := 7, script := [.drive .a .low] } : State) with
        | .next t => !t.armed
        | .fault _ => false
        | .refused _ => false) = true :=
  ⟨inv_of (by decide), by decide⟩

/-- StepConservesCount, TakeReturnsCommittedSum, CommittedDeltasConserved, CountBoundedByCommits, TakeAgainReturnsZero: runs of
one line that go on and avoid what the statement excludes, from COUNT = 0 under wrap. -/
theorem hyp_runs :
    (inServiceA .sampled [.commit .a]).params.ovf = .wrap ∧ (inServiceA .sampled [.commit .a]).count = 0 ∧
    runAvoids (fun e => e.isTake || e.isReset) 1 (inServiceA .sampled [.commit .a]) = true ∧
    runAvoids Event.isReset 1 (armed [.host 0x2000#16]) = true ∧
    (inServiceA .sampled [.commit .a]).nextIs Event.isReset = false ∧
    (armed [.host 0x2000#16]).nextIs Event.isReset = false ∧
    runAvoids Event.isCommit 1 (armed [.drive .a .low]) = true ∧
    (match Host.Core.run core 1 (inServiceA .sampled [.commit .a]) with
      | .next _ => true
      | .fault _ => false
      | .refused _ => false) = true ∧
    (match Host.Core.run core 1 (armed [.host 0x2000#16]) with
      | .next _ => true
      | .fault _ => false
      | .refused _ => false) = true ∧
    (match exec .take (armed [.drive .a .low]) with
      | .next _ => true
      | .fault _ => false
      | .refused _ => false) = true := by decide

/-- StatHidesCounter, NoPlainCounterAccess: commands go on in states that differ in COUNT. -/
theorem hyp_commands_go_on :
    (match exec .stat (armed []) with
      | .next _ => true
      | .fault _ => false
      | .refused _ => false) = true ∧
    (match exec .stat { armed [] with count := 9 } with
      | .next _ => true
      | .fault _ => false
      | .refused _ => false) = true ∧
    (match exec (.init 0x1#4 0x2#4) (armed []) with
      | .next _ => true
      | .fault _ => false
      | .refused _ => false) = true := by decide

/-- AssemblerWords: a line in range and one out of range. -/
theorem hyp_assembler :
    (AsmLine.init (.num 15) (.pair 0 3)).wf = true ∧ (AsmLine.seten 4).wf = false := by decide

/-! ### A run that goes round: A's edge is granted, A rises and falls again, SAMPLE, COMMIT -/

/-- The five states of the round. -/
def round (n : Nat) : State :=
  match n % 5 with
  | 0 => { armed [] with pend := ⟨true, false⟩, drv := ⟨.low, .z⟩ }
  | 1 => { inServiceA .granted [] with drv := ⟨.low, .z⟩ }
  | 2 => { inServiceA .granted [] with drv := ⟨.high, .z⟩ }
  | 3 => { inServiceA .granted [] with pend := ⟨true, false⟩, drv := ⟨.low, .z⟩ }
  | _ => { inServiceA .sampled [] with pend := ⟨true, false⟩, drv := ⟨.low, .z⟩ }

/-- The five steps of the round. -/
def roundStep (n : Nat) : Option Event :=
  match n % 5 with
  | 0 => some .grant
  | 1 => some (.drive .a .high)
  | 2 => some (.drive .a .low)
  | 3 => some (.sample .a)
  | _ => some (.commit .a)

theorem round_cases (n : Nat) : n % 5 = 0 ∨ n % 5 = 1 ∨ n % 5 = 2 ∨ n % 5 = 3 ∨ n % 5 = 4 := by
  omega

theorem round_isRun : IsRun round roundStep := by
  intro n
  rcases round_cases n with h | h | h | h | h <;>
    simp only [round, roundStep, h, show (n + 1) % 5 = (n % 5 + 1) % 5 by omega] <;> rfl

theorem round_fair : WeaklyFair round roundStep := by
  intro e hi n hen
  have hit : ∀ r, r < 5 → ∃ m, n ≤ m ∧ m % 5 = r := fun r hr => ⟨5 * n + r, by omega, by omega⟩
  have off : (round n).enables (.sample .b) = false ∧ (round n).enables (.commit .b) = false := by
    rcases round_cases n with h | h | h | h | h <;> simp only [round, h] <;> decide
  have h0 := hen n (Nat.le_refl n)
  cases e with
  | grant => obtain ⟨m, h1, h2⟩ := hit 0 (by omega); exact ⟨m, h1, by simp only [roundStep, h2]⟩
  | sample x =>
    cases x with
    | a => obtain ⟨m, h1, h2⟩ := hit 3 (by omega); exact ⟨m, h1, by simp only [roundStep, h2]⟩
    | b => rw [off.1] at h0; cases h0
  | commit x =>
    cases x with
    | a => obtain ⟨m, h1, h2⟩ := hit 4 (by omega); exact ⟨m, h1, by simp only [roundStep, h2]⟩
    | b => rw [off.2] at h0; cases h0
  | drive => cases hi
  | host => cases hi
  | reset => cases hi

/-- FairRunServes, RunsExtendScripts: a weakly fair run without RESET in which, at instant 0, A is pending
on an idle block and stays enabled, and, at instant 1, A is granted and cannot be preempted. -/
theorem hyp_fair_run :
    IsRun round roundStep ∧ WeaklyFair round roundStep ∧ (round 0).Inv ∧ (round 1).Inv ∧
    (∀ m, roundStep m ≠ some .reset) ∧
    (round 0).stack = [] ∧ (round 0).pend.get .a = true ∧ (∀ m, (round m).en.get .a = true) ∧
    (round 1).stack.getLast? = some .a ∧ (round 1).phase.get .a = .granted ∧
    (round 1).pre .a ≤ (round 1).pre Src.a.other := by
  refine ⟨round_isRun, round_fair, inv_of (by decide), inv_of (by decide), fun m => ?_, by decide,
    by decide, fun m => ?_, by decide, by decide, by decide⟩
  · rcases round_cases m with h | h | h | h | h <;> simp [roundStep, h]
  · rcases round_cases m with h | h | h | h | h <;> simp only [round, h] <;> rfl

/-- RunsExtendScripts: a script that goes on. FairRunForAnyInputs: inputs that are ENV's and HOST's. -/
theorem hyp_inputs :
    (match Host.Core.run core 3 { bothPending 0x0#4 0x1#4 [] with script := serviceLines .a ++ [.reset] } with
      | .next t => decide (t.script = [.reset])
      | .fault _ => false
      | .refused _ => false) = true ∧
    (Event.drive .a .low).isInternal = false ∧ (Event.host 0x2000#16).isInternal = false ∧
    Event.reset.isInternal = false := by decide

end Sys2Proof.Tests
end

section
/-! Proofs, 00_scope.md: the policies outside the signed range in one equation each, and the step of a
COMMIT that comes next. -/

namespace Sys2Proof.Machine

/-- Within one full turn of the range, wrapping subtracts or adds one `2^n`. -/
theorem wrapN_eq_ite {n : Nat} (h : 0 < n) {i : Int} (hlo : sintMin n - 2 ^ n ≤ i)
    (hhi : i ≤ sintMax n + 2 ^ n) :
    wrapN n i = if i > sintMax n then i - 2 ^ n else if i < sintMin n then i + 2 ^ n else i := by
  have h0 := two_pow_int_pos (n - 1)
  have hp := two_pow_pred h
  have eq_of_congr {j : Int} (hj : InSint n j) (hij : i % 2 ^ n = j % 2 ^ n) : wrapN n i = j :=
    (wrapN_congr hij).trans (wrapN_eq_self h hj)
  unfold InSint sintMin sintMax at *
  split
  · exact eq_of_congr (by omega) (Int.sub_emod_right i _).symm
  · split
    · exact eq_of_congr (by omega) (Int.add_emod_right i _).symm
    · exact eq_of_congr (by omega) rfl

/-- Saturation gives the limit on the side where the range is left. -/
theorem satN_eq_ite (n : Nat) (i : Int) :
    satN n i = if i > sintMax n then sintMax n else if i < sintMin n then sintMin n else i := by
  have h0 := two_pow_int_pos (n - 1)
  unfold satN sintMin sintMax
  split
  · omega
  · split <;> omega

/-- A counter in range leaves the range by at most one when a delta is added. -/
theorem InSint.add_delta_near {n : Nat} {c : Int} (hc : InSint n c) (d : Delta) :
    sintMin n - 1 ≤ c + d.toInt ∧ c + d.toInt ≤ sintMax n + 1 := by
  have hd := delta_natAbs_le d
  obtain ⟨hlo, hhi⟩ := hc
  omega

/-- A COMMIT of the channel on top that comes next goes on, with a line left or none. -/
theorem step_commit_taken {s : State} {x : Src} (hn : s.nextEvent = some (.commit x))
    (htop : s.stack.getLast? = some x) (hph : s.phase.get x = .sampled) :
    step s = .next (leaveService x (addDelta x s.taken)) := by
  rw [step_taken hn]
  exact if_pos (mayCommit_iff.mpr ⟨htop, hph⟩)

/-- A COMMIT that comes next goes on exactly when its channel is on top and SAMPLED. -/
theorem step_commit_goes_on_iff {s : State} {x : Src} (hn : s.nextEvent = some (.commit x)) :
    (∃ t, step s = .next t) ↔ s.stack.getLast? = some x ∧ s.phase.get x = .sampled := by
  rw [step_taken hn, ← enables_iff, enables_commit, taken_stack, taken_phase]

/-- Settles O36: the sum of a COUNT in range and a delta is within one of the range, where each
overflow policy has a closed form; all else is the frame of the COMMIT step. -/
theorem commitAddsDelta : Obligations.CommitAddsDelta := by
  intro s x hn hc
  refine ⟨step_commit_goes_on_iff hn, fun htop hph => ?_⟩
  rw [step_commit_taken hn htop hph]
  refine congrArg Host.Outcome.next ?_
  unfold leaveService addDelta
  congr 1
  obtain ⟨hlo, hhi⟩ := hc.add_delta_near (s.delta.get x)
  have hturn := two_pow_int_pos s.countW
  rw [taken_params, taken_count, taken_delta]
  cases hovf : s.params.ovf with
  | wrap =>
    rw [addCount_wrap hovf]
    exact wrapN_eq_ite (n := s.countW) (countW_pos s.params) (by omega) (by omega)
  | saturate =>
    rw [addCount_saturate hovf]
    exact satN_eq_ite s.countW _

end Sys2Proof.Machine
end

section
/-! Proofs, 10_state.md: the bits of the STATUS view, what a step does to the fault record, on which
elements of the state its going on depends, and the RESET event. -/

namespace Sys2Proof.Machine

/-- Appending one bit below a pattern puts it at the head of the list of the pattern's bits, bit 0
first. -/
theorem getLsbD_append_ofBool {n : Nat} {v : BitVec n} {l : List Bool}
    (h : ∀ j, v.getLsbD j = l.getD j false) (b : Bool) (j : Nat) :
    (v ++ BitVec.ofBool b).getLsbD j = (b :: l).getD j false := by
  rw [BitVec.getLsbD_append, BitVec.getLsbD_ofBool]
  cases j with
  | zero => simp
  | succ j => simp [h]

/-- A fault code's bits, bit 0 first: code 1 is bit 0 alone, code 2 bit 1 alone (60_exceptions.md
R98). -/
theorem errCode_bits_getLsbD (c : ErrCode) (j : Nat) :
    c.bits.getLsbD j = [decide (c = .illegalCmd), decide (c = .initActive)].getD j false := by
  match j with
  | 0 => cases c <;> rfl
  | 1 => cases c <;> rfl
  | j + 2 => exact BitVec.getLsbD_of_ge _ _ (Nat.le_add_left 2 j)

/-- The STATUS view's bits, bit 0 first (10_state.md R33). -/
theorem statusView_getLsbD (s : State) (la lb : Bool) (j : Nat) :
    (statusView s la lb).getLsbD j =
      [s.pend.a, s.pend.b, s.act .a, s.act .b, la, lb, s.armed, s.en.a, s.en.b, s.err,
        decide (s.errcode = .illegalCmd), decide (s.errcode = .initActive)].getD j false := by
  unfold statusView
  revert j
  iterate 10 refine getLsbD_append_ofBool ?_ _
  exact errCode_bits_getLsbD s.errcode

/-- Settles O19: STAT's effect is `execStat_spec`; the view's twelve bits are the list of
`statusView_getLsbD`, past whose end every bit is 0. -/
theorem statReturnsStatusView : Obligations.StatReturnsStatusView := by
  intro s
  obtain ⟨la, lb, ha, hb, hexec⟩ := execStat_spec s
  refine ⟨la, lb, _, _, ha, hb, hexec, ?_⟩
  simp only [BitVec.testBit_toNat, statusView_getLsbD]
  exact ⟨rfl, rfl, rfl, rfl, rfl, rfl, rfl, rfl, rfl, rfl, rfl, rfl,
    fun j hj => List.getD_eq_default _ _ hj⟩

/-- ERR, ERRCODE and the run's mark are in `t` what they are in `s`. -/
def SameFaultRecord (s t : State) : Prop :=
  t.err = s.err ∧ t.errcode = s.errcode ∧ t.faulted = s.faulted

/-- Presenting `w` in `s` is a fault with this code (60_exceptions.md R98). -/
inductive FaultsWith (s : State) (w : CmdWord) : ErrCode → Prop where
  | illegalWord (e : DecodeError) (hw : decode w = .error e) : FaultsWith s w .illegalCmd
  | initInService (pa pb : BitVec 4) (hw : decode w = .ok (.init pa pb)) (hs : s.stack ≠ []) :
      FaultsWith s w .initActive

/-- A command other than an INIT during a service leaves the fault record. -/
theorem exec_faultRecord {i : Instr} {s t : State} (h : exec i s = .next t) :
    SameFaultRecord s t ∨
      ∃ pa pb, i = .init pa pb ∧ s.stack ≠ [] ∧ t = raiseFault .initActive s := by
  rcases exec_cases i s with ⟨-, hx⟩ | ⟨_, _, -, -, hx⟩ | ⟨pa, pb, hi, hs, hx⟩ | ⟨-, hx⟩ |
    ⟨_, _, -, hx⟩ | ⟨_, _, -, -, -, hx⟩ <;> cases hx.symm.trans h
  case inr.inr.inl => exact .inr ⟨pa, pb, hi, hs, rfl⟩
  all_goals exact .inl ⟨rfl, rfl, rfl⟩

/-- What an agent's step does to the fault record: nothing, a fault's effect, or the RESET event. -/
theorem Took.faultRecord {e : Event} {s t : State} (h : Took e s t) :
    SameFaultRecord s t ∨
      (∃ w c, e = .host w ∧ FaultsWith s w c ∧ t = raiseFault c s) ∨
      (e = .reset ∧ t = resetBlock s) := by
  cases h with
  | drive l v => rw [driveLine_spec]; exact .inl ⟨rfl, rfl, rfl⟩
  | grant => exact .inl ⟨rfl, rfl, rfl⟩
  | sample x =>
    obtain ⟨_, _, -, -, hx⟩ := takeSample_spec x s
    rw [hx]
    exact .inl ⟨rfl, rfl, rfl⟩
  | commit => exact .inl ⟨rfl, rfl, rfl⟩
  | illegal w e _ hw => exact .inr (.inl ⟨w, _, rfl, .illegalWord e hw, rfl⟩)
  | command w i _ _ hw hx =>
    rcases exec_faultRecord hx with hsame | ⟨pa, pb, rfl, hs, rfl⟩
    · exact .inl hsame
    · exact .inr (.inl ⟨w, _, rfl, .initInService pa pb hw hs, rfl⟩)
  | reset => exact .inr (.inr ⟨rfl, rfl⟩)

theorem nextIs_of_nextEvent {s : State} {e : Event} (h : s.nextEvent = some e) (p : Event → Bool) :
    s.nextIs p = p e := by
  simp only [State.nextIs, h]

/-- With ERR set, a step that is no RESET keeps ERR and ERRCODE (10_state.md R30). -/
theorem step_keeps_first_code {s t : State} (herr : s.err = true) (h : step s = .next t)
    (hr : s.nextIs Event.isReset = false) : t.err = true ∧ t.errcode = s.errcode := by
  obtain ⟨e, he, htook, -⟩ := step_next h
  rw [nextIs_of_nextEvent he] at hr
  rcases htook.faultRecord with ⟨h1, h2, -⟩ | ⟨_, c, -, -, rfl⟩ | ⟨rfl, -⟩
  · exact ⟨h1.trans herr, h2⟩
  · exact ⟨rfl, if_pos herr⟩
  · cases hr

/-- No step clears the run's mark (60_exceptions.md R99). -/
theorem step_keeps_mark {s t : State} (hf : s.faulted = true) (h : step s = .next t) :
    t.faulted = true := by
  obtain ⟨e, -, htook, -⟩ := step_next h
  rcases htook.faultRecord with ⟨-, -, h3⟩ | ⟨_, c, -, -, rfl⟩ | ⟨-, rfl⟩
  · exact h3.trans hf
  · rfl
  · exact hf

/-- Eligibility reads PEND, EN, PRIO, PHASE and STACK alone (41_service.md R75). -/
theorem eligible_congr {s t : State} (hpend : t.pend = s.pend) (hen : t.en = s.en)
    (hprio : t.prio = s.prio) (hphase : t.phase = s.phase) (hstack : t.stack = s.stack) (x : Src) :
    t.eligible x = s.eligible x := by
  unfold State.eligible State.mayEnter State.top State.pre
  rw [hpend, hen, hprio, hphase, hstack]

/-- Which steps are enabled depends on PEND, EN, PRIO, PHASE and STACK alone. -/
theorem enables_congr {s t : State} (hpend : t.pend = s.pend) (hen : t.en = s.en)
    (hprio : t.prio = s.prio) (hphase : t.phase = s.phase) (hstack : t.stack = s.stack) (e : Event) :
    t.enables e = s.enables e := by
  cases hi : e.isInternal with
  | false => rw [enables_input hi, enables_input hi]
  | true =>
    rw [Bool.eq_iff_iff]
    cases e with
    | grant => simp only [enables_grant, eligible_congr hpend hen hprio hphase hstack]
    | sample x => rw [enables_sample, enables_sample, hphase, hstack]
    | commit x => rw [enables_commit, enables_commit, hphase, hstack]
    | _ => cases hi

/-- The machine goes on exactly when the agent step that comes next is enabled. -/
theorem step_goes_on_iff {s : State} :
    (∃ t, step s = .next t) ↔ ∃ e, s.nextEvent = some e ∧ s.enables e = true := by
  have htaken (e : Event) : s.taken.enables e = s.enables e :=
    enables_congr (s := s) (t := s.taken) rfl rfl rfl rfl rfl e
  constructor
  · rintro ⟨t, ht⟩
    obtain ⟨e, he, -, -⟩ := step_next ht
    exact ⟨e, he, htaken e ▸ enables_iff.mpr ⟨t, step_taken he ▸ ht⟩⟩
  · rintro ⟨e, he, hen⟩
    rw [step_taken he]
    exact enables_iff.mp (htaken e ▸ hen)

/-- `s` with another fault record. -/
def State.withFaultRecord (s : State) (b : Bool) (c : ErrCode) (f : Bool) : State :=
  { s with err := b, errcode := c, faulted := f }

/-- The choice of the next step does not read the fault record. -/
theorem nextEvent_withFaultRecord (s : State) (b : Bool) (c : ErrCode) (f : Bool) :
    (s.withFaultRecord b c f).nextEvent = s.nextEvent := by
  unfold State.nextEvent State.chosen State.internalChoice
  simp only [show (s.withFaultRecord b c f).script = s.script from rfl,
    show (s.withFaultRecord b c f).grantee = s.grantee from rfl,
    show (s.withFaultRecord b c f).channelStep = s.channelStep from rfl]
  cases s.script <;> cases s.grantee <;> cases s.channelStep <;> rfl

/-- Whether the machine goes on does not depend on the fault record. -/
theorem step_goes_on_withFaultRecord (s : State) (b : Bool) (c : ErrCode) (f : Bool) :
    (∃ t, step s = .next t) ↔ ∃ t, step (s.withFaultRecord b c f) = .next t := by
  have hen (e : Event) : (s.withFaultRecord b c f).enables e = s.enables e :=
    enables_congr (s := s) (t := s.withFaultRecord b c f) rfl rfl rfl rfl rfl e
  simp only [step_goes_on_iff, nextEvent_withFaultRecord, hen]

/-- Settles O42: every step's effect on the fault record is `Took.faultRecord`, and what decides
whether a step goes on does not read the record. -/
theorem faultKeepsFirstCode : Obligations.FaultKeepsFirstCode := by
  refine ⟨fun _ _ => rfl, fun _ _ => step_keeps_first_code, fun s rest hline => ?_,
    fun _ _ => step_keeps_mark, fun s hf hgood => ?_,
    fun s b f c => step_goes_on_withFaultRecord s b c f⟩
  · exact ⟨_, step_reset hline, rfl, rfl, rfl⟩
  · obtain ⟨-, -, hclear⟩ := hgood
    rw [hf] at hclear
    cases hclear

/-- Settles O46: a RESET line always goes on, to `resetBlock` of the state with the line used up. -/
theorem resetEventClearsBlock : Obligations.ResetEventClearsBlock := fun _ _ hline =>
  ⟨_, step_reset hline, resetBlock_count _, resetBlock_pend _, resetBlock_en _, resetBlock_armed _,
    resetBlock_prio _, resetBlock_phase _, resetBlock_delta _, resetBlock_stack _, resetBlock_err _,
    resetBlock_errcode _, resetBlock_rdata _, resetBlock_drv _, resetBlock_faulted _,
    resetBlock_script _⟩

end Sys2Proof.Machine
end

section
/-! Proofs, 30_encoding.md: the opcode map, the operand fields, the illegal words, and what a HOST step
answers. -/

namespace Sys2Proof

theorem OpRow.hit_iff {r : OpRow} {w : CmdWord} :
    r.hit w = true ↔ w &&& r.mask = r.pattern := decide_eq_true_iff

/-- The operands of the command are the word's fields (30_encoding.md R55). -/
def Instr.OperandsIn (w : CmdWord) : Instr → Prop
  | .nop => True
  | .init pa pb => pa = paField w ∧ pb = pbField w
  | .take => True
  | .seten ea eb => ea = eaField w ∧ eb = ebField w
  | .stat => True

/-- A word decodes to a command exactly when it matches the command's row and carries its operands. -/
theorem decode_ok_iff {w : CmdWord} {i : Instr} :
    decode w = .ok i ↔ i.row.hit w = true ∧ i.OperandsIn w := by
  constructor
  · intro h
    unfold decode at h
    split_ifs at h with h0 h1 h2 h3 h4 <;> cases h
    · exact ⟨h0, trivial⟩
    · exact ⟨h1, rfl, rfl⟩
    · exact ⟨h2, trivial⟩
    · exact ⟨h3, rfl, rfl⟩
    · exact ⟨h4, trivial⟩
  · rintro ⟨hrow, hops⟩
    rw [decode_eq]
    cases i with
    | nop =>
      have h : w.toNat = 0 := by simpa [Instr.row, hit_nop] using hrow
      simp [h]
    | init pa pb =>
      obtain ⟨rfl, rfl⟩ := hops
      have h : w.toNat / 256 = 16 := by simpa [Instr.row, hit_init] using hrow
      rw [if_neg (by omega), if_pos h]
    | take =>
      have h : w.toNat = 8192 := by simpa [Instr.row, hit_take] using hrow
      simp [h]
    | seten ea eb =>
      obtain ⟨rfl, rfl⟩ := hops
      have h : w.toNat / 4 = 3072 := by simpa [Instr.row, hit_seten] using hrow
      rw [if_neg (by omega), if_neg (by omega), if_neg (by omega), if_pos h]
    | stat =>
      have h : w.toNat = 16384 := by simpa [Instr.row, hit_stat] using hrow
      simp [h]

/-- A word is illegal exactly when no row of the map matches it (30_encoding.md R58). -/
theorem decode_error_iff {w : CmdWord} :
    (∃ e, decode w = .error e) ↔ ∀ r ∈ opcodeRows, r.hit w = false := by
  unfold decode opcodeRows
  split_ifs <;> simp [*]

/-- Every row's mask keeps OP, so a word that matches the row has the OP of its pattern. -/
theorem opField_of_hit {r : OpRow} (hr : r ∈ opcodeRows) {w : CmdWord} (h : r.hit w = true) :
    opField w = opField r.pattern := by
  have hmask : ∀ r ∈ opcodeRows, opField r.mask = BitVec.allOnes 4 := by decide
  have hand : opField (w &&& r.mask) = opField w &&& opField r.mask := BitVec.extractLsb'_and
  rw [← OpRow.hit_iff.mp h, hand, hmask r hr, BitVec.and_allOnes]

/-- No word matches two rows: OP tells the rows apart (30_encoding.md R58). -/
theorem row_eq_of_hit {r q : OpRow} (hr : r ∈ opcodeRows) (hq : q ∈ opcodeRows) {w : CmdWord}
    (hrw : r.hit w = true) (hqw : q.hit w = true) : r = q := by
  have hop : ∀ r ∈ opcodeRows, ∀ q ∈ opcodeRows,
      opField r.pattern = opField q.pattern → r = q := by decide
  exact hop r hr q hq ((opField_of_hit hr hrw).symm.trans (opField_of_hit hq hqw))

/-- Settles O2: a row's words are `decode_ok_iff` without the operands, which every word has. -/
theorem opcodeMapExact : Obligations.OpcodeMapExact := by
  intro w
  have hdecode {i : Instr} :
      decode w = .ok i ↔ w &&& i.row.mask = i.row.pattern ∧ i.OperandsIn w :=
    decode_ok_iff.trans (and_congr_left' OpRow.hit_iff)
  refine ⟨hdecode.trans (and_iff_left trivial), ⟨?_, fun h => ⟨_, _, hdecode.mpr ⟨h, rfl, rfl⟩⟩⟩,
    hdecode.trans (and_iff_left trivial), ⟨?_, fun h => ⟨_, _, hdecode.mpr ⟨h, rfl, rfl⟩⟩⟩,
    hdecode.trans (and_iff_left trivial), fun r hr q hq => row_eq_of_hit hr hq, decode_error_iff⟩
  · rintro ⟨pa, pb, h⟩
    exact (hdecode.mp h).1
  · rintro ⟨ea, eb, h⟩
    exact (hdecode.mp h).1

/-- A row without operands matches by OP and ARG. -/
theorem hit_whole_iff_fields {p w : CmdWord} :
    OpRow.hit { pattern := p, mask := 0xFFFF#16 } w = true ↔
      opField w = opField p ∧ argField w = argField p := by
  have hw := w.isLt
  have hp := p.isLt
  simp only [hit_whole, decide_eq_true_eq, ← BitVec.toNat_inj, opField_toNat, argField_toNat]
  omega

/-- NOP's row by fields (30_encoding.md R55). -/
theorem hit_nop_iff {w : CmdWord} :
    nopRow.hit w = true ↔ opField w = 0x0#4 ∧ argField w = 0#12 := hit_whole_iff_fields

/-- TAKE's row by fields (30_encoding.md R55). -/
theorem hit_take_iff {w : CmdWord} :
    takeRow.hit w = true ↔ opField w = 0x2#4 ∧ argField w = 0#12 := hit_whole_iff_fields

/-- STAT's row by fields (30_encoding.md R55). -/
theorem hit_stat_iff {w : CmdWord} :
    statRow.hit w = true ↔ opField w = 0x4#4 ∧ argField w = 0#12 := hit_whole_iff_fields

/-- INIT's row by fields (30_encoding.md R55). -/
theorem hit_init_iff {w : CmdWord} :
    initRow.hit w = true ↔ opField w = 0x1#4 ∧ initRsv w = 0#4 := by
  have hw := w.isLt
  simp only [hit_init, decide_eq_true_eq, ← BitVec.toNat_inj, opField_toNat, initRsv_toNat,
    BitVec.reduceToNat]
  omega

/-- SETEN's row by fields (30_encoding.md R55). -/
theorem hit_seten_iff {w : CmdWord} :
    setenRow.hit w = true ↔ opField w = 0x3#4 ∧ setenRsv w = 0#10 := by
  have hw := w.isLt
  simp only [hit_seten, decide_eq_true_eq, ← BitVec.toNat_inj, opField_toNat, setenRsv_toNat,
    BitVec.reduceToNat]
  omega

/-- Settles O3: the operands are `decode_ok_iff`'s, the zero fields those of the command's row. -/
theorem operandFieldLayout : Obligations.OperandFieldLayout := by
  intro w i h
  obtain ⟨hrow, hops⟩ := decode_ok_iff.mp h
  cases i with
  | nop => exact (hit_nop_iff.mp hrow).2
  | init pa pb => exact ⟨hops.1, hops.2, (hit_init_iff.mp hrow).2⟩
  | take => exact (hit_take_iff.mp hrow).2
  | seten ea eb => exact ⟨hops.1, hops.2, (hit_seten_iff.mp hrow).2⟩
  | stat => exact (hit_stat_iff.mp hrow).2

/-- OP is reserved or one of the five that the map defines (30_encoding.md R59). -/
theorem opField_cases (w : CmdWord) :
    5 ≤ (opField w).toNat ∨ opField w = 0x0#4 ∨ opField w = 0x1#4 ∨ opField w = 0x2#4 ∨
      opField w = 0x3#4 ∨ opField w = 0x4#4 := by
  generalize opField w = op
  revert op
  decide

/-- The illegal words by fields (30_encoding.md R59, R60). -/
theorem decode_error_iff_fields {w : CmdWord} :
    (∃ e, decode w = .error e) ↔
      5 ≤ (opField w).toNat ∨
      (opField w = 0x0#4 ∧ argField w ≠ 0#12) ∨ (opField w = 0x1#4 ∧ initRsv w ≠ 0#4) ∨
      (opField w = 0x2#4 ∧ argField w ≠ 0#12) ∨ (opField w = 0x3#4 ∧ setenRsv w ≠ 0#10) ∨
      (opField w = 0x4#4 ∧ argField w ≠ 0#12) := by
  simp only [decode_error_iff, opcodeRows, List.forall_mem_cons, List.not_mem_nil, false_imp_iff,
    implies_true, and_true, ← Bool.not_eq_true, hit_nop_iff, hit_init_iff, hit_take_iff,
    hit_seten_iff, hit_stat_iff]
  rcases opField_cases w with h | h | h | h | h | h
  · have hne (op : BitVec 4) (hop : op.toNat < 5) : opField w ≠ op := by
      rintro rfl
      omega
    simp [h, hne]
  all_goals simp [h]

end Sys2Proof

namespace Sys2Proof.Machine

/-- Settles O6: `decode_error_iff_fields`, and the step of an illegal word. -/
theorem illegalWordFaults : Obligations.IllegalWordFaults := fun _ =>
  ⟨decode_error_iff_fields, fun _ _ _ hw hline => step_illegal hline hw⟩

/-- Settles O10: each command's answer is in `exec_cases`; an INIT during a service answers as a
fault. -/
theorem hostStepAlwaysAnswers : Obligations.HostStepAlwaysAnswers := by
  intro s w rest hline
  cases hw : decode w with
  | error e => exact ⟨_, step_illegal hline hw, rfl, rfl⟩
  | ok i =>
    rw [step_command hline hw]
    rcases exec_cases i { s with script := rest } with ⟨rfl, hx⟩ | ⟨pa, pb, rfl, -, hx⟩ |
      ⟨pa, pb, rfl, -, hx⟩ | ⟨rfl, hx⟩ | ⟨ea, eb, rfl, hx⟩ | ⟨la, lb, rfl, ha, hb, hx⟩ <;>
    refine ⟨_, hx, rfl, ?_⟩
    case inr.inr.inr.inr.inr => exact ⟨la, lb, ha, hb, rfl⟩
    all_goals rfl

/-- A source is eligible exactly under the conditions of 41_service.md R75. -/
theorem eligible_iff {s : State} {x : Src} : s.eligible x = true ↔
    s.pend.get x = true ∧ s.en.get x = true ∧ s.phase.get x = .idle ∧
      ∀ y, s.stack.getLast? = some y → s.pre x < s.pre y := by
  refine ⟨eligible_spec, ?_⟩
  rintro ⟨hpend, hen, hidle, hpre⟩
  simp only [State.eligible, hpend, hen, hidle, State.mayEnter, State.top]
  cases hlast : s.stack.getLast? with
  | none => rfl
  | some y => simpa using hpre y hlast

/-- SETEN's word as the assembler's formula gives it (30_encoding.md R64). -/
theorem encode_seten_eq_or (ea eb : Bool) :
    encode (.seten ea eb) =
      0x3000#16 ||| ((BitVec.ofBool eb).setWidth 16 <<< 1) ||| (BitVec.ofBool ea).setWidth 16 := by
  revert ea eb
  decide

/-- The words of SETEN: each pair of enables has one. -/
theorem decode_seten_iff {w : CmdWord} {ea eb : Bool} :
    decode w = .ok (.seten ea eb) ↔ w = encode (.seten ea eb) := by
  simp only [decode_ok_iff, Instr.row, Instr.OperandsIn, hit_seten, eaField_eq, ebField_eq,
    decide_eq_true_eq, ← BitVec.toNat_inj, encode_seten_toNat]
  cases ea <;> cases eb <;> simp <;> omega

/-- Settles O18: the encoding is `decode_seten_iff`; SETEN writes only the enables, so that of R75's
conditions it is the enable that decides. -/
theorem setenWritesEnables : Obligations.SetenWritesEnables := by
  refine ⟨fun _ _ _ => rfl, fun w ea eb => encode_seten_eq_or ea eb ▸ decode_seten_iff,
    fun w hop hrsv => decode_error_iff_fields.mpr (.inr (.inr (.inr (.inr (.inl ⟨hop, hrsv⟩))))),
    fun s x hpend hidle hstack ea eb t ht => ?_⟩
  have hpre : ∀ y, s.stack.getLast? = some y → s.pre x < s.pre y := by
    intro y hy
    rcases hstack with hnil | ⟨z, hz, hlt⟩
    · rw [hnil] at hy
      cases hy
    · cases hz.symm.trans hy
      exact hlt
  cases ht
  exact eligible_iff.trans ⟨fun ⟨_, hen, _⟩ => hen, fun hen => ⟨hpend, hen, hidle, hpre⟩⟩

/-- Settles O8: twelve lines, each assembled. -/
theorem pseudoInstructionWords : Obligations.PseudoInstructionWords := by
  unfold Obligations.PseudoInstructionWords
  decide

end Sys2Proof.Machine
end

section
/-! Proofs, 40_edge_detect.md: what a DRIVE latches, and when a source is eligible again once its service
has ended. -/

namespace Sys2Proof.Machine

/-- Settles O26: `driveLine_spec` of the state with the line used up; with ARMED set neither of the two
reads is a draw. -/
theorem driveLatchesFallingEdge : Obligations.DriveLatchesFallingEdge := by
  intro s l v rest hline
  have hlatch : (s.pend.get l || (s.armed && decide (s.drv.get l ≠ .low) && decide (v = .low))) =
      decide (s.pend.get l = true ∨ (s.armed = true ∧ s.drv.get l ≠ .low ∧ v = .low)) := by
    simp [Bool.and_assoc]
  refine ⟨s.draws + s.readDraws (s.drv.get l) + s.readDraws v, ?_, fun ha => ?_⟩
  · rw [step_drive hline, driveLine_spec, ← hlatch]
    rfl
  · simp only [readDraws_armed ha, Nat.add_zero]

/-- What a DRIVE leaves in PEND (40_edge_detect.md R70, R71). -/
theorem driveLine_pend (l : Src) (v : Drive) (s : State) :
    (driveLine l v s).pend = s.pend.set l
      (s.pend.get l || (s.armed && decide (s.drv.get l ≠ .low) && decide (v = .low))) := by
  rw [driveLine_spec]

/-- A DRIVE of an unarmed block latches nothing (40_edge_detect.md R72). -/
theorem driveLine_pend_unarmed {s : State} (ha : s.armed = false) (l : Src) (v : Drive) :
    (driveLine l v s).pend = s.pend := by
  simp [driveLine_pend, ha]

/-- An edge on a pending line merges with the pending one (40_edge_detect.md R71). -/
theorem driveLine_pend_pending {s : State} {l : Src} (hp : s.pend.get l = true) (v : Drive) :
    (driveLine l v s).pend = s.pend := by
  rw [driveLine_pend, hp, Bool.true_or, ← hp, Pair.set_get]

/-- A falling edge of an armed line is latched (40_edge_detect.md R70). -/
theorem driveLine_pend_edge {s : State} {l : Src} (ha : s.armed = true) (hd : s.drv.get l ≠ .low) :
    (driveLine l .low s).pend.get l = true := by
  simp [driveLine_pend, ha, hd]

/-- INIT, accepted or not, does not write PEND (42_host_commands.md R88, R89). -/
theorem exec_init_pend {s t : State} {pa pb : BitVec 4} (h : exec (.init pa pb) s = .next t) :
    t.pend = s.pend := by
  by_cases hs : s.stack = []
  · cases (exec_init_idle hs pa pb).symm.trans h
    rfl
  · cases (exec_init_busy hs pa pb).symm.trans h
    rfl

/-- A masked source is not eligible (41_service.md R75). -/
theorem eligible_masked {s : State} {x : Src} (h : s.en.get x = false) : s.eligible x = false := by
  simp [State.eligible, h]

/-- A source with nothing pending is not eligible (41_service.md R75). -/
theorem eligible_not_pending {s : State} {x : Src} (h : s.pend.get x = false) :
    s.eligible x = false := by
  simp [State.eligible, h]

/-- Settles O27: a DRIVE's latch is `driveLine_pend`, which does not read the enables and latches nothing
while unarmed. -/
theorem detectionGatedByArmedAlone : Obligations.DetectionGatedByArmedAlone := by
  refine ⟨fun s t t' l v rest en hline ht ht' => ?_, fun s x => eligible_masked,
    fun s t l v rest ha hline ht => ?_, fun s t pa pb => exec_init_pend⟩
  · cases (step_drive hline).symm.trans ht
    cases (step_drive (s := { s with en := en }) hline).symm.trans ht'
    simp only [driveLine_pend]
  · cases (step_drive hline).symm.trans ht
    exact driveLine_pend_unarmed (s := { s with script := rest }) ha l v

/-- STACK without a repeated element holds at most one service over the other source's. -/
theorem nodup_src_cases {l : List Src} (h : l.Nodup) :
    l = [] ∨ (∃ x, l = [x]) ∨ ∃ y x, l = [y, x] := by
  match l with
  | [] => exact .inl rfl
  | [x] => exact .inr (.inl ⟨x, rfl⟩)
  | [y, x] => exact .inr (.inr ⟨y, x, rfl⟩)
  | x :: y :: z :: _ => cases x <;> cases y <;> cases z <;> simp at h

/-- The service under the top one has the greater `pre` (10_state.md R25 c). -/
theorem State.Inv.pre_lt_below {s : State} (hinv : s.Inv) {x y : Src}
    (htop : s.stack.getLast? = some x) (hbelow : s.stack.dropLast.getLast? = some y) :
    s.pre x < s.pre y := by
  rcases nodup_src_cases hinv.noRepeat with hs | ⟨z, hs⟩ | ⟨y', x', hs⟩
  · simp [hs] at htop
  · simp [hs] at hbelow
  · obtain rfl : x' = x := by simpa [hs] using htop
    obtain rfl : y' = y := by simpa [hs] using hbelow
    exact hinv.nested _ _ hs

/-- A source pending and enabled is eligible once its service ends, if it may enter over the service
that is left. -/
theorem eligible_leaveService {s : State} {x : Src} (hpend : s.pend.get x = true)
    (hen : s.en.get x = true)
    (hbelow : ∀ y, s.stack.dropLast.getLast? = some y → s.pre x < s.pre y) :
    (leaveService x s).eligible x = true :=
  eligible_iff.mpr ⟨hpend, hen, Pair.get_set_same _ _ _, hbelow⟩

/-- A GRANT that comes next serves the grantee, with a line left or none. -/
theorem step_grant_taken {s : State} {x : Src} (hn : s.nextEvent = some .grant)
    (hx : s.grantee = some x) : step s = .next (enterService x s.taken) := by
  rw [step_taken hn]
  exact grantStep_some (s := s.taken) hx

/-- Settles O28: a DRIVE's latch by whether the line is pending; a GRANT clears it; and a source may
enter again over the service it had preempted, whose `pre` is greater. -/
theorem edgesMergeWhilePending : Obligations.EdgesMergeWhilePending := by
  refine ⟨fun s x v rest hp hline => ?_, fun s x hx hn => ?_, fun s x rest ha hd hline => ?_,
    fun s x htop hover hph hp hen hn => ?_⟩
  · exact ⟨_, step_drive hline, driveLine_pend_pending (s := { s with script := rest }) hp v⟩
  · have hclear : (enterService x s.taken).pend.get x = false := Pair.get_set_same _ _ _
    exact ⟨_, step_grant_taken hn hx, hclear, eligible_not_pending hclear⟩
  · refine ⟨_, step_drive hline, driveLine_pend_edge (s := { s with script := rest }) ha hd, ?_⟩
    rw [driveLine_spec]
    exact ⟨rfl, rfl⟩
  · refine ⟨_, step_commit_taken hn htop hph, eligible_leaveService hp hen fun y hy => ?_⟩
    rcases hover with hs | hinv
    · simp [hs] at hy
    · exact hinv.pre_lt_below htop hy

end Sys2Proof.Machine
end

section
/-! Proofs, 41_service.md: the priority order, which source a GRANT takes, and what a SAMPLE stores. -/

namespace Sys2Proof.Machine

theorem pre_eq_div (s : State) (x : Src) : s.pre x = (s.prio.get x).toNat / 4 := by
  have hlt := (s.prio.get x).isLt
  rw [State.pre, preOf, BitVec.extractLsb'_toNat, Nat.shiftRight_eq_div_pow]
  omega

theorem sub_eq_mod (s : State) (x : Src) : s.sub x = (s.prio.get x).toNat % 4 := by
  rw [State.sub, subOf, BitVec.extractLsb'_toNat]
  rfl

/-- The lexicographic order by `pre`, then `sub`, is the order of PRIO as a number; the index decides
between equal priorities (41_service.md R74). -/
theorem keyLt_iff_prio {s : State} {x y : Src} : keyLt (s.key x) (s.key y) = true ↔
    (s.prio.get x).toNat < (s.prio.get y).toNat ∨
      ((s.prio.get x).toNat = (s.prio.get y).toNat ∧ x.idx < y.idx) := by
  rw [keyLt_iff]
  simp only [State.key, pre_eq_div, sub_eq_mod]
  omega

/-- A's key is below B's when its priority is not larger: A wins a tie. -/
theorem keyLt_a_b_iff {s : State} :
    keyLt (s.key .a) (s.key .b) = true ↔ s.prio.a.toNat ≤ s.prio.b.toNat :=
  keyLt_iff_prio.trans (by simp only [Pair.get, Src.idx]; omega)

/-- B's key is below A's when its priority is strictly smaller. -/
theorem keyLt_b_a_iff {s : State} :
    keyLt (s.key .b) (s.key .a) = true ↔ s.prio.b.toNat < s.prio.a.toNat :=
  keyLt_iff_prio.trans (by simp only [Pair.get, Src.idx]; omega)

/-- Of the two sources' keys one is below the other. -/
theorem keyLt_b_a_of_not {s : State} (h : ¬ keyLt (s.key .a) (s.key .b) = true) :
    keyLt (s.key .b) (s.key .a) = true :=
  keyLt_b_a_iff.mpr (Nat.lt_of_not_le (mt keyLt_a_b_iff.mpr h))

/-- Settles O29: both orders are `keyLt_iff_prio` with a priority taken apart by division, and
preemption compares `pre` alone. -/
theorem priorityKeyOrder : Obligations.PriorityKeyOrder := by
  intro s
  refine ⟨fun x => ⟨pre_eq_div s x, sub_eq_mod s x⟩, ?_, ?_, fun x y hlast hel => ?_⟩
  · rw [keyLt_a_b_iff]
    simp only [pre_eq_div, sub_eq_mod, Pair.get]
    omega
  · rw [keyLt_b_a_iff]
    simp only [pre_eq_div, sub_eq_mod, Pair.get]
    omega
  · obtain ⟨-, -, -, hpre⟩ := eligible_spec hel
    exact hpre y hlast

/-- What must hold of the top of STACK holds with STACK empty, or of the source on top. -/
theorem forall_top_iff {l : List Src} {P : Src → Prop} :
    (∀ y, l.getLast? = some y → P y) ↔ l = [] ∨ ∃ y, l.getLast? = some y ∧ P y := by
  cases hlast : l.getLast? with
  | none => simp [List.getLast?_eq_none_iff.mp hlast]
  | some z =>
    have hne : l ≠ [] := by
      rintro rfl
      cases hlast
    simp [hne]

/-- Settles O30: `eligible_iff`, with the condition on the top of STACK split by whether there is
one. -/
theorem eligibleExactlyWhen : Obligations.EligibleExactlyWhen := fun _ _ =>
  eligible_iff.trans (and_congr_right' (and_congr_right' (and_congr_right' forall_top_iff)))

/-- With an eligible source there is one to grant. -/
theorem exists_grantee {s : State} {z : Src} (hz : s.eligible z = true) :
    ∃ x, s.grantee = some x := by
  refine Option.ne_none_iff_exists'.mp fun hnone => ?_
  rw [grantee_none.mp hnone z] at hz
  cases hz

/-- The key of the source to grant is below every other eligible source's (41_service.md R76). -/
theorem grantee_key_lt {s : State} {x y : Src} (hx : s.grantee = some x)
    (hy : s.eligible y = true) (hne : y ≠ x) : keyLt (s.key x) (s.key y) = true := by
  have hel := grantee_eligible hx
  match x, y with
  | .a, .a | .b, .b => exact absurd rfl hne
  | .a, .b =>
    by_contra hlt
    simp [State.grantee, hel, hy, hlt] at hx
  | .b, .a =>
    refine keyLt_b_a_of_not fun hlt => ?_
    simp [State.grantee, hel, hy, hlt] at hx

theorem taken_eligible (s : State) (x : Src) : s.taken.eligible x = s.eligible x := rfl

/-- A GRANT that comes next goes on exactly when some source is eligible. -/
theorem step_grant_goes_on_iff {s : State} (hn : s.nextEvent = some .grant) :
    (∃ t, step s = .next t) ↔ ∃ x, s.eligible x = true := by
  rw [step_taken hn, ← enables_iff, enables_grant]
  simp only [taken_eligible]

/-- Settles O31: the source taken is the grantee, whose key is the smallest by `grantee_key_lt`. -/
theorem grantTakesMostUrgent : Obligations.GrantTakesMostUrgent := by
  intro s hn
  refine ⟨step_grant_goes_on_iff hn, fun z hz => ?_⟩
  obtain ⟨x, hx⟩ := exists_grantee hz
  exact ⟨x, grantee_eligible hx, fun y => grantee_key_lt hx, step_grant_taken hn hx⟩

/-- Settles O32: the grantee's key is below the other's; which source that is follows from the two
priorities as numbers. -/
theorem simultaneousPendOrder : Obligations.SimultaneousPendOrder := by
  intro s hn ha hb
  have hel : ∀ y, s.eligible y = true := by
    intro y
    cases y with
    | a => exact ha
    | b => exact hb
  obtain ⟨x, hx⟩ := exists_grantee ha
  have hkey := grantee_key_lt hx (hel x.other) (Src.other_ne x)
  have hother : s.pend.get x.other = true := (eligible_spec (hel x.other)).1
  refine ⟨x, _, step_grant_taken hn hx, rfl, hkey, Pair.get_set_same _ _ _,
    (Pair.get_set_other _ _ _).trans hother, ?_⟩
  cases x with
  | a =>
    refine ⟨fun _ => rfl, fun _ => rfl, fun hprio => ?_⟩
    simp [Src.other, keyLt_a_b_iff, hprio] at hkey
  | b =>
    have hlt : s.prio.b.toNat < s.prio.a.toNat := keyLt_b_a_iff.mp hkey
    refine ⟨fun hprio => ?_, fun hprio => ?_, fun _ => rfl⟩
    · simp [hprio] at hlt
    · simp [hprio] at hlt

/-- A line that is high makes the delta zero (41_service.md R81). -/
theorem muxDelta_high (x : Src) {la lb : Bool} (h : la = true ∨ lb = true) :
    muxDelta x la lb = .zero := by
  rcases h with rfl | rfl
  · cases x <;> rfl
  · cases x <;> cases la <;> rfl

/-- In a state meeting the invariant a block in service is armed (70_reset_and_hazards.md R116). -/
theorem State.Inv.armed_of_top {s : State} (hinv : s.Inv) {x : Src}
    (htop : s.stack.getLast? = some x) : s.armed = true := by
  by_contra ha
  obtain ⟨-, hnil, -⟩ := hinv.unarmed (Bool.eq_false_iff.mpr ha)
  rw [hnil] at htop
  cases htop

/-- A SAMPLE of the channel on top that comes next goes on, with a line left or none. -/
theorem step_sample_taken {s : State} {x : Src} (hn : s.nextEvent = some (.sample x))
    (htop : s.stack.getLast? = some x) (hph : s.phase.get x = .granted) :
    step s = .next (takeSample x s.taken) := by
  rw [step_taken hn]
  exact if_pos (maySample_iff.mpr ⟨htop, hph⟩)

/-- A SAMPLE that comes next goes on exactly when its channel is on top and GRANTED. -/
theorem step_sample_goes_on_iff {s : State} {x : Src} (hn : s.nextEvent = some (.sample x)) :
    (∃ t, step s = .next t) ↔ s.stack.getLast? = some x ∧ s.phase.get x = .granted := by
  rw [step_taken hn, ← enables_iff, enables_sample, taken_stack, taken_phase]

/-- Settles O35: `takeSample_spec` of the state the step is taken from; the invariant arms a block in
service, and then neither read is a draw. -/
theorem sampleComputesDelta : Obligations.SampleComputesDelta := by
  intro s x hn
  refine ⟨step_sample_goes_on_iff hn, fun htop hph => ?_⟩
  obtain ⟨la, lb, hla, hlb, hsample⟩ := takeSample_spec x s.taken
  refine ⟨la, lb, muxDelta x la lb, s.readDraws s.drv.a + s.readDraws s.drv.b, hla, hlb,
    ?_, ?_, fun hhigh => ?_, ?_, fun hinv => ?_⟩
  · rintro rfl rfl rfl
    rfl
  · rintro rfl rfl rfl
    rfl
  · rw [muxDelta_high x hhigh]
    rfl
  · rw [step_sample_taken hn htop hph, hsample, ← Nat.add_assoc]
    rfl
  · have harmed := hinv.armed_of_top htop
    exact ⟨harmed, by rw [readDraws_armed harmed, readDraws_armed harmed]⟩

end Sys2Proof.Machine
end

section
/-! Proofs, 42_host_commands.md: the words of NOP, INIT and TAKE, the two outcomes of an INIT, and what a
TAKE answers. -/

namespace Sys2Proof

/-- NOP's one word (42_host_commands.md R87). -/
theorem decode_nop_iff {w : CmdWord} : decode w = .ok .nop ↔ w = 0x0000#16 := by
  simp [decode_ok_iff, Instr.row, Instr.OperandsIn, hit_nop, ← BitVec.toNat_inj]

/-- TAKE's one word (42_host_commands.md R90). -/
theorem decode_take_iff {w : CmdWord} : decode w = .ok .take ↔ w = 0x2000#16 := by
  simp [decode_ok_iff, Instr.row, Instr.OperandsIn, hit_take, ← BitVec.toNat_inj]

/-- The words of INIT: each pair of priorities has one. -/
theorem decode_init_iff {w : CmdWord} {pa pb : BitVec 4} :
    decode w = .ok (.init pa pb) ↔ w = encode (.init pa pb) := by
  have ha := pa.isLt
  have hb := pb.isLt
  simp only [decode_ok_iff, Instr.row, Instr.OperandsIn, hit_init, decide_eq_true_eq,
    ← BitVec.toNat_inj, paField_toNat, pbField_toNat, encode_init_toNat]
  omega

/-- INIT's word as 42_host_commands.md R88 gives it. -/
theorem encode_init_eq_or (pa pb : BitVec 4) :
    encode (.init pa pb) = 0x1000#16 ||| (pb.setWidth 16 <<< 4) ||| pa.setWidth 16 := by
  revert pa pb
  decide

/-- A word below INIT's with a bit set is OP 0 with a nonzero ARG, so it is illegal (42_host_commands.md
R87). -/
theorem decode_error_of_op_zero {w : CmdWord} (hlo : 1 ≤ w.toNat) (hhi : w.toNat ≤ 0x0FFF) :
    ∃ e, decode w = .error e := by
  have hop : opField w = 0x0#4 := by
    simp only [← BitVec.toNat_inj, opField_toNat, BitVec.reduceToNat]
    omega
  have harg : argField w ≠ 0#12 := by
    simp only [ne_eq, ← BitVec.toNat_inj, argField_toNat, BitVec.reduceToNat]
    omega
  exact decode_error_iff_fields.mpr (.inr (.inl ⟨hop, harg⟩))

end Sys2Proof

namespace Sys2Proof.Machine

/-- Settles O14: NOP's effect is its definition, its word `decode_nop_iff`. -/
theorem nopOnlyResponds : Obligations.NopOnlyResponds :=
  ⟨fun _ => rfl, fun _ => decode_nop_iff, fun _ => decode_error_of_op_zero⟩

/-- Settles O15: the two outcomes of an INIT are `exec_init_idle` and `exec_init_busy`; the first leaves
STACK empty and has nothing left to write when repeated. -/
theorem initArmsIdleBlock : Obligations.InitArmsIdleBlock := by
  refine ⟨fun s pa pb hs => exec_init_idle hs pa pb, fun s pa pb hs => exec_init_busy hs pa pb,
    fun pa pb => decode_init_iff.mpr (encode_init_eq_or pa pb).symm,
    fun w hop hrsv => decode_error_iff_fields.mpr (.inr (.inr (.inl ⟨hop, hrsv⟩))),
    fun s t pa pb hs ht => ?_⟩
  cases (exec_init_idle hs pa pb).symm.trans ht
  exact exec_init_idle (s := respond 0 (armBlock pa pb s)) hs pa pb

/-- Settles O16: the two outcomes of an INIT, whatever is pending. -/
theorem initFaultsDuringService : Obligations.InitFaultsDuringService := fun _ pa pb =>
  ⟨fun hs => exec_init_busy hs pa pb,
    fun hs => ⟨_, exec_init_idle hs pa pb, rfl, rfl, rfl, rfl, rfl⟩⟩

/-- A delta is in the range of COUNT, whose width is at least 16 (00_scope.md R6). -/
theorem Delta.inSint (d : Delta) (p : Params) : InSint p.countW d.toInt := by
  have hd := delta_natAbs_le d
  have hpow : (2 : Int) ^ 1 ≤ 2 ^ (p.countW - 1) :=
    pow_le_pow_right₀ (by decide) (by unfold Params.countW; omega)
  unfold InSint sintMin sintMax
  omega

/-- Added to a zeroed COUNT, a delta stands as it is under both overflow policies. -/
theorem addCount_zero_delta (p : Params) (d : Delta) : addCount p 0 d.toInt = d.toInt := by
  cases hovf : p.ovf with
  | wrap => rw [addCount_wrap hovf, Int.zero_add, wrapN_eq_self (countW_pos p) (d.inSint p)]
  | saturate => rw [addCount_saturate hovf, Int.zero_add, satN_eq_self (d.inSint p)]

theorem patternN_zero (n : Nat) : patternN n 0 = 0 := rfl

/-- The pattern of a negative integer is that integer one full turn up (00_scope.md R12). -/
theorem patternN_neg {n k : Nat} (hpos : 0 < k) (hk : k ≤ 2 ^ n) : patternN n (-k) = 2 ^ n - k := by
  have hturn : ((2 ^ n : Nat) : Int) = 2 ^ n := by norm_cast
  have hmod : -(k : Int) % 2 ^ n = -k + 2 ^ n := by
    rw [← Int.add_emod_right, Int.emod_eq_of_lt] <;> omega
  rw [patternN, hmod]
  omega

/-- -1 is all ones, the least count the sign bit alone (42_host_commands.md R90). -/
theorem patternN_limits {n : Nat} (hn : 0 < n) :
    patternN n (-1) = 2 ^ n - 1 ∧ patternN n (-(2 ^ (n - 1))) = 2 ^ (n - 1) := by
  have hhalf : 2 ^ n = 2 * 2 ^ (n - 1) := (mul_pow_sub_one hn.ne' 2).symm
  have hpos : 0 < 2 ^ (n - 1) := Nat.two_pow_pos _
  have hone := patternN_neg (n := n) (k := 1) Nat.one_pos (by omega)
  have hleast := patternN_neg (n := n) (k := 2 ^ (n - 1)) hpos (by omega)
  push_cast at hone hleast
  exact ⟨hone, hleast.trans (by omega)⟩

/-- TAKE's whole effect (42_host_commands.md R90). -/
theorem exec_take (s : State) :
    exec .take s = .next { s with rdata := patternN s.countW s.count, count := 0 } := rfl

/-- With COUNT 0 a TAKE answers 0 and leaves COUNT as it is. -/
theorem exec_take_count_zero {s : State} (h : s.count = 0) :
    exec .take s = .next { s with rdata := 0 } := by
  rw [exec_take, h, patternN_zero]

/-- A TAKE line answers COUNT's pattern and zeroes COUNT. -/
theorem step_take {s : State} {rest : List Event} (h : s.script = .host 0x2000#16 :: rest) :
    step s = .next { s with script := rest, rdata := patternN s.countW s.count, count := 0 } :=
  step_command h (decode_take_iff.mpr rfl)

/-- A COMMIT line and a TAKE line: the TAKE answers the count that the COMMIT left. -/
theorem run_commit_take {s : State} {x : Src} {rest : List Event}
    (htop : s.stack.getLast? = some x) (hph : s.phase.get x = .sampled)
    (hline : s.script = .commit x :: .host 0x2000#16 :: rest) :
    Host.Core.run core 2 s = .next { leaveService x s with
      script := rest
      rdata := patternN s.countW (addCount s.params s.count (s.delta.get x).toInt)
      count := 0 } := by
  rw [run_next (step_commit_next hline htop hph)]
  refine (run_next (step_take ?_) 0).trans (run_zero _)
  rfl

/-- A sampled delta is missed by the TAKE before its COMMIT and returned by the TAKE after it
(20_memory.md R48). -/
theorem run_take_commit_take {s : State} {x : Src} {rest : List Event}
    (htop : s.stack.getLast? = some x) (hph : s.phase.get x = .sampled)
    (hline : s.script = .host 0x2000#16 :: .commit x :: .host 0x2000#16 :: rest) :
    Host.Core.run core 3 s = .next { leaveService x s with
      script := rest, rdata := patternN s.countW (s.delta.get x).toInt, count := 0 } := by
  rw [← addCount_zero_delta s.params, run_next (step_take hline)]
  exact run_commit_take htop hph rfl

/-- Settles O17: TAKE's effect is its definition; twice it meets COUNT 0, after a first TAKE and, by the
invariant, before INIT; the three lines are `run_take_commit_take`. -/
theorem takeReturnsAndZeroes : Obligations.TakeReturnsAndZeroes := by
  refine ⟨exec_take, fun _ => decode_take_iff, fun s => sintN_patternN (countW_pos s.params),
    fun s t ht => ?_, fun _ => patternN_limits, fun s hinv ha => ?_,
    fun s t x rest htop hph hline ht => ?_⟩
  · cases ht
    exact exec_take_count_zero rfl
  · obtain ⟨-, -, hcount⟩ := hinv.unarmed ha
    exact exec_take_count_zero hcount
  · cases (run_take_commit_take htop hph hline).symm.trans ht
    exact ⟨rfl, rfl⟩

end Sys2Proof.Machine
end

section
/-! Proofs, 60_exceptions.md: the values of the fault codes, and the only causes of a fault. -/

namespace Sys2Proof.Machine

/-- The value 3 is no fault code's (60_exceptions.md R98). -/
theorem errCode_bits_ne_three (c : ErrCode) : c.bits ≠ 3#2 := by cases c <;> decide

/-- The two causes of a fault, each with its code (60_exceptions.md R98). -/
theorem FaultsWith.cause {s : State} {w : CmdWord} {c : ErrCode} (h : FaultsWith s w c) :
    (∃ e, decode w = .error e ∧ c = .illegalCmd) ∨
      (∃ pa pb, decode w = .ok (.init pa pb) ∧ s.stack ≠ [] ∧ c = .initActive) := by
  cases h with
  | illegalWord e hw => exact .inl ⟨e, hw, rfl⟩
  | initInService pa pb hw hs => exact .inr ⟨pa, pb, hw, hs, rfl⟩

/-- A step that sets ERR is a HOST step whose word faults with the code recorded. -/
theorem step_first_fault {s t : State} (herr : s.err = false) (h : step s = .next t)
    (hset : t.err = true) :
    ∃ w, s.nextEvent = some (.host w) ∧ FaultsWith s.taken w t.errcode := by
  obtain ⟨e, he, htook, -⟩ := step_next h
  rcases htook.faultRecord with ⟨hkept, -, -⟩ | ⟨w, c, rfl, hcause, rfl⟩ | ⟨-, rfl⟩
  · rw [hset, taken_err, herr] at hkept
    cases hkept
  · have hcode : (raiseFault c s.taken).errcode = c := by simp [herr]
    exact ⟨w, he, hcode.symm ▸ hcause⟩
  · cases hset

/-- A step that changes ERRCODE is a RESET, or a HOST step that leaves ERR set (10_state.md R30). -/
theorem step_changes_errcode {s t : State} (h : step s = .next t) (hne : t.errcode ≠ s.errcode) :
    s.nextIs Event.isReset = true ∨ (t.err = true ∧ s.nextIs Event.isHost = true) := by
  obtain ⟨e, he, htook, -⟩ := step_next h
  rw [nextIs_of_nextEvent he, nextIs_of_nextEvent he]
  rcases htook.faultRecord with ⟨-, hkept, -⟩ | ⟨w, c, rfl, -, rfl⟩ | ⟨rfl, -⟩
  · exact absurd hkept hne
  · exact .inr ⟨rfl, rfl⟩
  · exact .inl rfl

/-- Settles O43: the fault that sets ERR has its cause in the state the step is taken from, whose STACK is
that of the machine's state. -/
theorem faultCausesComplete : Obligations.FaultCausesComplete := by
  refine ⟨⟨rfl, rfl, rfl, errCode_bits_ne_three⟩, fun s t herr h hset => ?_,
    fun _ _ => step_changes_errcode⟩
  obtain ⟨w, hn, hcause⟩ := step_first_fault herr h hset
  exact ⟨w, hn, hcause.cause⟩

end Sys2Proof.Machine
end

section
/-! Proofs, the encoding in both directions: a word decodes to a command exactly when it is the command's
encoding; the assembler's lines; what a table's word runs. -/

namespace Sys2Proof

/-- STAT's one word (42_host_commands.md R94). -/
theorem decode_stat_iff {w : CmdWord} : decode w = .ok .stat ↔ w = encode .stat := by
  simp [decode_ok_iff, Instr.row, Instr.OperandsIn, hit_stat, encode, ← BitVec.toNat_inj]

/-- Decoder and encoder are inverse to each other: one word, one meaning. -/
theorem decode_ok_iff_encode {w : CmdWord} {i : Instr} : decode w = .ok i ↔ w = encode i := by
  cases i with
  | nop => exact decode_nop_iff
  | init pa pb => exact decode_init_iff
  | take => exact decode_take_iff
  | seten ea eb => exact Machine.decode_seten_iff
  | stat => exact decode_stat_iff

/-- The encoding of a command is a legal word (30_encoding.md R59, R60). -/
theorem encode_wf (i : Instr) : CmdWord.wf (encode i) = true := by
  have hlegal : Laws.Encoding.Statement i := by
    cases i with
    | nop => exact Laws.Encoding.nop
    | init pa pb => exact Laws.Encoding.init pa pb
    | take => exact Laws.Encoding.take
    | seten ea eb => exact Laws.Encoding.seten ea eb
    | stat => exact Laws.Encoding.stat
  obtain ⟨-, -, hword⟩ := hlegal
  exact hword

/-- Settles O4: the encoding of a command is a word that `decode_ok_iff_encode` decodes. -/
theorem decodeOfEncode : Obligations.DecodeOfEncode := fun _ _ => decode_ok_iff_encode.mpr rfl

/-- Settles O5: a word that decodes is its command's encoding, and encodings are legal words. -/
theorem encodeOfDecode : Obligations.EncodeOfDecode := by
  intro w i h
  obtain rfl := decode_ok_iff_encode.mp h
  exact ⟨rfl, encode_wf i⟩

/-- Settles O1: ten fixed words. -/
theorem decodeSampleWords : Obligations.DecodeSampleWords := by
  unfold Obligations.DecodeSampleWords
  decide

end Sys2Proof

namespace Sys2Proof.Machine

/-- A priority operand in range fits four bits (30_encoding.md R64). -/
theorem prioValue_lt {p : PrioArg} (h : p.wf = true) : prioValue p < 16 := by
  cases p with
  | num n =>
    have hn : n ≤ 15 := by simpa [PrioArg.wf] using h
    exact Nat.lt_succ_of_le hn
  | pair pre sub =>
    have hps : pre ≤ 3 ∧ sub ≤ 3 := by simpa [PrioArg.wf] using h
    simp only [prioValue]
    omega

/-- A number of four bits is the same 16-bit word written directly or by way of its field. -/
theorem ofNat_setWidth_field {n : Nat} (h : n < 16) :
    (BitVec.ofNat 4 n).setWidth 16 = BitVec.ofNat 16 n := by
  apply BitVec.eq_of_toNat_eq
  simp only [BitVec.toNat_setWidth, BitVec.toNat_ofNat]
  omega

/-- The assembler's word of a line in range is the encoding of the line's command. -/
theorem lineWord_eq_encode {l : AsmLine} (h : l.wf = true) : lineWord l = encode (lineInstr l) := by
  cases l with
  | init pa pb =>
    obtain ⟨ha, hb⟩ : pa.wf = true ∧ pb.wf = true := by simpa [AsmLine.wf] using h
    simp only [lineWord, lineInstr, expandLine, encode_init_eq_or,
      ofNat_setWidth_field (prioValue_lt ha), ofNat_setWidth_field (prioValue_lt hb)]
  | seten m =>
    have hm : m ≤ 3 := by simpa [AsmLine.wf] using h
    have hall : ∀ m ≤ 3, lineWord (.seten m) = encode (lineInstr (.seten m)) := by decide
    exact hall m hm
  | _ => decide

/-- Settles O7: a line in range assembles to its command's encoding. -/
theorem assemblerWords : Obligations.AssemblerWords := fun l =>
  ⟨fun h => ⟨lineWord l, if_pos h, decode_ok_iff_encode.mpr (lineWord_eq_encode h)⟩,
    fun h => if_neg (Bool.eq_false_iff.mp h)⟩

/-- A table's word is a command only by way of the decoder. -/
theorem decode_of_decodeTableWord {nbits v : Nat} {i : Instr}
    (h : decodeTableWord nbits v = some i) : decode (tableWord nbits v) = .ok i := by
  unfold decodeTableWord at h
  split at h
  · split at h
    · next hw => cases h; exact hw
    · cases h
  · cases h

/-- Settles O9: both are the step of a HOST line with a legal word. -/
theorem stepRunsDecodedCommand : Obligations.StepRunsDecodedCommand :=
  ⟨fun _ _ _ _ hline hw _ => step_command hline hw,
    fun s nbits v _ hv => step_command (s := s.withFetchWord nbits v) rfl (decode_of_decodeTableWord hv)⟩

end Sys2Proof.Machine
end

section
/-! Proofs, the invariant: per operation that it is kept, then for every agent's step and every step of
the machine; what follows from it about STACK, eligibility and the block before INIT. -/

namespace Sys2Proof.Machine

/-- The invariant says nothing of the draws and the lines to come. -/
theorem State.Inv.after_taken {s : State} (hinv : s.Inv) : s.taken.Inv :=
  { hinv with }

/-- A response in the range of RDATA. -/
theorem State.Inv.after_respond {s : State} (hinv : s.Inv) {v : Nat} (hv : v < 2 ^ s.countW) :
    (respond v s).Inv :=
  { hinv with rdataRange := hv }

theorem State.Inv.after_raiseFault {s : State} (hinv : s.Inv) {c : ErrCode} (hc : c ≠ .none) :
    (raiseFault c s).Inv where
  inService := hinv.inService
  noRepeat := hinv.noRepeat
  nested := hinv.nested
  countRange := hinv.countRange
  rdataRange := Nat.two_pow_pos _
  unarmed := hinv.unarmed
  errCode := by
    cases herr : s.err with
    | false => simp [herr, hc]
    | true => simp [herr, ← hinv.errCode]
  errMark := fun _ => rfl

/-- The priorities may change while STACK is empty. -/
theorem State.Inv.after_armBlock {s : State} (hinv : s.Inv) (hs : s.stack = []) (pa pb : BitVec 4) :
    (armBlock pa pb s).Inv where
  inService := hinv.inService
  noRepeat := hinv.noRepeat
  nested := fun y x h => by cases hs.symm.trans h
  countRange := hinv.countRange
  rdataRange := hinv.rdataRange
  unarmed := nofun
  errCode := hinv.errCode
  errMark := hinv.errMark

theorem inSint_zero (n : Nat) : InSint n 0 := by
  have h0 := two_pow_int_pos (n - 1)
  unfold InSint sintMin sintMax
  omega

/-- COUNT may be zeroed at any time. -/
theorem State.Inv.after_zeroCount {s : State} (hinv : s.Inv) : ({ s with count := 0 } : State).Inv :=
  { hinv with
    countRange := inSint_zero s.countW
    unarmed := fun ha =>
      have ⟨hpend, hstack, _⟩ := hinv.unarmed ha
      ⟨hpend, hstack, rfl⟩ }

/-- A host command leaves a state meeting the invariant. -/
theorem State.Inv.after_exec {s t : State} (hinv : s.Inv) {i : Instr} (h : exec i s = .next t) :
    t.Inv := by
  have hzero : 0 < 2 ^ s.countW := Nat.two_pow_pos _
  rcases exec_cases i s with ⟨-, hx⟩ | ⟨pa, pb, -, hs, hx⟩ | ⟨_, _, -, -, hx⟩ | ⟨-, hx⟩ |
    ⟨ea, eb, -, hx⟩ | ⟨la, lb, -, -, -, hx⟩ <;> cases hx.symm.trans h
  · exact hinv.after_respond hzero
  · exact (hinv.after_armBlock hs pa pb).after_respond hzero
  · exact hinv.after_raiseFault nofun
  · exact hinv.after_zeroCount.after_respond (patternN_lt _ _)
  · exact { hinv with rdataRange := hzero }
  · exact { hinv with rdataRange := statusView_lt s la lb }

/-- A DRIVE latches only on an armed block. -/
theorem State.Inv.after_driveLine {s : State} (hinv : s.Inv) (l : Src) (v : Drive) :
    (driveLine l v s).Inv := by
  have hunarmed : s.armed = false →
      (driveLine l v s).pend = ⟨false, false⟩ ∧ s.stack = [] ∧ s.count = 0 := fun ha =>
    (driveLine_pend_unarmed ha l v).symm ▸ hinv.unarmed ha
  rw [driveLine_spec] at hunarmed ⊢
  exact { hinv with unarmed := hunarmed }

/-- A granted source is not in service already (41_service.md R75, R84). -/
theorem State.Inv.not_mem_of_eligible {s : State} (hinv : s.Inv) {x : Src}
    (h : s.eligible x = true) : x ∉ s.stack := by
  obtain ⟨-, -, hidle, -⟩ := eligible_spec h
  exact fun hmem => (hinv.inService x).mp hmem hidle

/-- Before INIT no source is eligible (70_reset_and_hazards.md R116). -/
theorem State.Inv.not_eligible_of_unarmed {s : State} (hinv : s.Inv) (ha : s.armed = false) (x : Src) :
    s.eligible x = false := by
  obtain ⟨hpend, -, -⟩ := hinv.unarmed ha
  exact eligible_not_pending (by cases x <;> simp [hpend])

/-- A grant pushes a source that is in no service and may preempt the one on top. -/
theorem State.Inv.after_enterService {s : State} (hinv : s.Inv) {x : Src} (h : s.eligible x = true) :
    (enterService x s).Inv where
  inService y := by
    rw [enterService_stack, enterService_phase, Pair.get_set, List.mem_append, List.mem_singleton,
      hinv.inService y]
    by_cases hy : y = x <;> simp [hy]
  noRepeat := by
    rw [enterService_stack, ← List.concat_eq_append]
    exact hinv.noRepeat.concat (hinv.not_mem_of_eligible h)
  nested := fun y z hstack => by
    obtain ⟨-, -, -, hpre⟩ := eligible_spec h
    have hsplit : s.stack ++ [x] = [y] ++ [z] := hstack
    obtain ⟨hy, hz⟩ := List.append_inj' hsplit rfl
    cases hz
    exact hpre y (by rw [hy]; rfl)
  countRange := hinv.countRange
  rdataRange := hinv.rdataRange
  unarmed := fun ha => by
    rw [hinv.not_eligible_of_unarmed ha x] at h
    cases h
  errCode := hinv.errCode
  errMark := hinv.errMark

/-- A source in service may move to another phase of its service. -/
theorem State.Inv.after_takeSample {s : State} (hinv : s.Inv) {x : Src}
    (htop : s.stack.getLast? = some x) : (takeSample x s).Inv := by
  obtain ⟨_, _, -, -, hx⟩ := takeSample_spec x s
  rw [hx]
  refine { hinv with inService := fun y => ?_ }
  rw [Pair.get_set]
  split
  · next hy =>
    subst hy
    exact iff_of_true (List.mem_of_getLast? htop) nofun
  · exact hinv.inService y

/-- STACK with the source on top apart (10_state.md R24, R25 b). -/
theorem State.Inv.stack_split {s : State} (hinv : s.Inv) {x : Src} (htop : s.stack.getLast? = some x) :
    s.stack.dropLast ++ [x] = s.stack ∧ x ∉ s.stack.dropLast := by
  have hsplit := List.dropLast_append_getLast? x htop
  refine ⟨hsplit, fun hmem => ?_⟩
  have hnodup := hinv.noRepeat
  rw [← hsplit, ← List.concat_eq_append, List.nodup_concat] at hnodup
  exact hnodup.1 hmem

/-- A commit of the channel on top pops it and leaves the service under it. -/
theorem State.Inv.after_commit {s : State} (hinv : s.Inv) {x : Src} (htop : s.stack.getLast? = some x) :
    (leaveService x (addDelta x s)).Inv where
  inService y := by
    obtain ⟨hsplit, hnot⟩ := hinv.stack_split htop
    have hy := hinv.inService y
    rw [← hsplit, List.mem_append, List.mem_singleton] at hy
    rw [leaveService_stack, leaveService_phase, Pair.get_set, addDelta_stack, addDelta_phase]
    split
    · next hyx => simp [hyx, hnot]
    · next hyx => simpa [hyx] using hy
  noRepeat := hinv.noRepeat.sublist (List.dropLast_sublist _)
  nested := fun y z hstack => by
    have hlen : s.stack.length - 1 = 2 :=
      (List.length_dropLast (xs := s.stack)).symm.trans (congrArg List.length hstack)
    rcases nodup_src_cases hinv.noRepeat with hs | ⟨_, hs⟩ | ⟨_, _, hs⟩ <;> simp [hs] at hlen
  countRange := addCount_inSint _ _ _
  rdataRange := hinv.rdataRange
  unarmed := fun ha => by cases (hinv.armed_of_top htop).symm.trans ha
  errCode := hinv.errCode
  errMark := hinv.errMark

theorem State.Inv.of_resetBlock (s : State) : (resetBlock s).Inv where
  inService := fun x => by cases x <;> simp
  noRepeat := List.nodup_nil
  nested := nofun
  countRange := inSint_zero _
  rdataRange := Nat.two_pow_pos _
  unarmed := fun _ => ⟨rfl, rfl, rfl⟩
  errCode := iff_of_true rfl rfl
  errMark := nofun

/-- Every agent's step keeps the invariant. -/
theorem Took.keeps_inv {e : Event} {s t : State} (h : Took e s t) (hinv : s.Inv) : t.Inv := by
  cases h with
  | drive l v => exact hinv.after_driveLine l v
  | grant x _ hx => exact hinv.after_enterService (grantee_eligible hx)
  | sample x _ hx => exact hinv.after_takeSample (maySample_iff.mp hx).1
  | commit x _ hx => exact hinv.after_commit (mayCommit_iff.mp hx).1
  | command w i _ _ _ hx => exact hinv.after_exec hx
  | illegal => exact hinv.after_raiseFault nofun
  | reset => exact .of_resetBlock s

/-- Settles O48: the step is an agent's step of a state that meets the invariant as well. -/
theorem stepKeepsInv : Obligations.StepKeepsInv := by
  intro s t hinv h
  obtain ⟨e, -, htook, -⟩ := step_next h
  exact htook.keeps_inv hinv.after_taken

/-- Settles O47: the state at the start of a run is what a RESET leaves. -/
theorem resetMeetsInv : Obligations.ResetMeetsInv := State.Inv.of_resetBlock State.reset

/-- Settles O45: each value is State.reset's own. -/
theorem resetStateValues : Obligations.ResetStateValues :=
  ⟨rfl, rfl, rfl, rfl, rfl, rfl, rfl, rfl, rfl, rfl, rfl⟩

/-- Settles O49: every run keeps the invariant, by which an unarmed block is quiet. -/
theorem unarmedBlockStaysQuiet : Obligations.UnarmedBlockStaysQuiet := by
  intro k s t hinv hrun ha
  have ht : t.Inv := run_keeps stepKeepsInv k s t hinv hrun
  obtain ⟨hpend, hstack, hcount⟩ := ht.unarmed ha
  exact ⟨hpend, hstack, hcount, grantee_none.mpr (ht.not_eligible_of_unarmed ha)⟩

/-- With equal levels no service is above another (41_service.md R78). -/
theorem State.Inv.stack_length_le_one {s : State} (hinv : s.Inv) (heq : s.pre .a = s.pre .b) :
    s.stack.length ≤ 1 := by
  have hpre (x : Src) : s.pre x = s.pre .a := by
    cases x with
    | a => rfl
    | b => exact heq.symm
  rcases nodup_src_cases hinv.noRepeat with hs | ⟨x, hs⟩ | ⟨y, x, hs⟩
  · simp [hs]
  · simp [hs]
  · have hlt := hinv.nested y x hs
    rw [hpre x, hpre y] at hlt
    exact absurd hlt (Nat.lt_irrefl _)

/-- Settles O34: the invariant, before and after the step. -/
theorem equalPreNeverNests : Obligations.EqualPreNeverNests := fun s hinv heq =>
  ⟨hinv.stack_length_le_one heq, fun t h ht => (stepKeepsInv s t hinv h).stack_length_le_one ht⟩

end Sys2Proof.Machine
end

section
/-! Proofs, the counter: wrapping and patterns, what each step does to COUNT, and the sums over a run. -/

namespace Sys2Proof.Machine

/-- A pattern read back is the wrapped integer (00_scope.md R12). -/
theorem sintN_patternN_eq_wrapN {n : Nat} (hn : 0 < n) (i : Int) :
    sintN n (patternN n i) = wrapN n i := by
  rw [← patternN_congr (wrapN_emod i)]
  exact sintN_patternN hn (wrapN_inSint hn i)

/-- The wrapped integer is the one of the range congruent to `i` (00_scope.md R12). -/
theorem eq_wrapN_iff {n : Nat} (hn : 0 < n) {i j : Int} :
    (InSint n j ∧ (j - i) % 2 ^ n = 0) ↔ j = wrapN n i := by
  rw [← Int.emod_eq_emod_iff_emod_sub_eq_zero]
  constructor
  · rintro ⟨hj, hij⟩
    exact inSint_unique hn hj (wrapN_inSint hn i) (hij.trans (wrapN_emod i).symm)
  · rintro rfl
    exact ⟨wrapN_inSint hn i, wrapN_emod i⟩

/-- Settles O37: wrapping by `eq_wrapN_iff`, saturation by its closed form. -/
theorem wrapAndSaturate : Obligations.WrapAndSaturate := by
  intro n i hn
  refine ⟨fun j => eq_wrapN_iff hn, sintN_patternN_eq_wrapN hn i, satN_eq_self, fun hhi => ?_,
    fun hlo => ?_⟩
  · rw [satN_eq_ite, if_pos hhi]
  · have hle : ¬ i > sintMax n := by
      have h0 := two_pow_int_pos (n - 1)
      unfold sintMin at hlo
      unfold sintMax
      omega
    rw [satN_eq_ite, if_neg hle, if_pos hlo]

/-- What a host command leaves: the parameters, STACK, PHASE and PEND; COUNT unless it is TAKE; PRIO while
a service is in progress (42_host_commands.md section 2). -/
structure CommandFrame (i : Instr) (s t : State) : Prop where
  params : t.params = s.params
  stack : t.stack = s.stack
  phase : t.phase = s.phase
  pend : t.pend = s.pend
  count : i ≠ .take → t.count = s.count
  prio : s.stack ≠ [] → t.prio = s.prio

theorem exec_frame {i : Instr} {s t : State} (h : exec i s = .next t) : CommandFrame i s t := by
  rcases exec_cases i s with ⟨-, hx⟩ | ⟨_, _, -, hidle, hx⟩ | ⟨_, _, -, -, hx⟩ | ⟨htake, hx⟩ |
    ⟨_, _, -, hx⟩ | ⟨_, _, -, -, -, hx⟩ <;> cases hx.symm.trans h
  case inr.inl => exact ⟨rfl, rfl, rfl, rfl, fun _ => rfl, fun hbusy => absurd hidle hbusy⟩
  case inr.inr.inr.inl =>
    exact ⟨rfl, rfl, rfl, rfl, fun hi => absurd htake hi, fun _ => rfl⟩
  all_goals exact ⟨rfl, rfl, rfl, rfl, fun _ => rfl, fun _ => rfl⟩

/-- No agent's step writes the parameters (notes/assumptions/5.md). -/
theorem Took.params {e : Event} {s t : State} (h : Took e s t) : t.params = s.params := by
  cases h with
  | drive l v => rw [driveLine_spec]
  | command _ _ _ _ _ hx => exact (exec_frame hx).params
  | _ => rfl

theorem step_params {s t : State} (h : step s = .next t) : t.params = s.params := by
  obtain ⟨e, -, htook, -⟩ := step_next h
  exact htook.params

theorem step_countW {s t : State} (h : step s = .next t) : t.countW = s.countW :=
  congrArg Params.countW (step_params h)

/-- COUNT is neither read nor written by the step: it is no COMMIT, TAKE or RESET. -/
def Event.sparesCount (e : Event) : Prop :=
  e.isCommit = false ∧ e.isTake = false ∧ e.isReset = false

/-- What an agent's step does to COUNT: a COMMIT adds its delta, a TAKE returns and zeroes it, a RESET
zeroes it, any other step leaves it (10_state.md R20). -/
theorem Took.count_cases {e : Event} {s t : State} (h : Took e s t) :
    (e.sparesCount ∧ t.count = s.count) ∨
    (∃ x, e = .commit x ∧ t.count = addCount s.params s.count (s.delta.get x).toInt) ∨
    (∃ w, e = .host w ∧ decode w = .ok .take ∧ t.count = 0 ∧ t.rdata = patternN s.countW s.count) ∨
    (e = .reset ∧ t.count = 0) := by
  cases h with
  | drive l v => exact .inl ⟨⟨rfl, rfl, rfl⟩, by rw [driveLine_spec]⟩
  | grant => exact .inl ⟨⟨rfl, rfl, rfl⟩, rfl⟩
  | sample x => exact .inl ⟨⟨rfl, rfl, rfl⟩, rfl⟩
  | commit x => exact .inr (.inl ⟨x, rfl, rfl⟩)
  | illegal w e _ hw => exact .inl ⟨⟨rfl, by simp [Event.isTake, hw], rfl⟩, rfl⟩
  | command w i _ _ hw hx =>
    by_cases hi : i = .take
    · subst hi
      cases (exec_take s).symm.trans hx
      exact .inr (.inr (.inl ⟨w, rfl, hw, rfl, rfl⟩))
    · exact .inl ⟨⟨rfl, by simp [Event.isTake, hw, hi], rfl⟩, (exec_frame hx).count hi⟩
  | reset => exact .inr (.inr (.inr ⟨rfl, rfl⟩))

theorem committing_of_nextEvent {s : State} {e : Event} (h : s.nextEvent = some e)
    (he : e.isCommit = false) : s.committing = 0 := by
  cases e with
  | commit x => cases he
  | _ => simp only [State.committing, h]

theorem committing_commit {s : State} {x : Src} (h : s.nextEvent = some (.commit x)) :
    s.committing = (s.delta.get x).toInt := by
  simp only [State.committing, h]

theorem taking_of_not_take {s : State} (h : s.nextIs Event.isTake = false) : s.taking = 0 := by
  simp [State.taking, h]

theorem taking_take {s t : State} {w : CmdWord} (h : s.nextEvent = some (.host w))
    (hw : decode w = .ok .take) (ht : step s = .next t) : s.taking = sintN t.countW t.rdata := by
  have htake : s.nextIs Event.isTake = true := by simp [nextIs_of_nextEvent h, Event.isTake, hw]
  simp [State.taking, htake, ht]

/-- Settles O54: the COMMIT's sum and the TAKE's answer are each wrapped, which keeps them modulo
`2^COUNT_W`. -/
theorem stepConservesCount : Obligations.StepConservesCount := by
  intro s t hovf h hr
  obtain ⟨e, he, htook, -⟩ := step_next h
  have htaking (hnot : e.isTake = false) : s.taking = 0 :=
    taking_of_not_take ((nextIs_of_nextEvent he _).trans hnot)
  rcases htook.count_cases with ⟨⟨hc, ht, -⟩, hcount⟩ | ⟨x, rfl, hcount⟩ |
    ⟨w, rfl, hw, hcount, hrdata⟩ | ⟨rfl, -⟩
  · rw [htaking ht, committing_of_nextEvent he hc, hcount, Int.zero_add, Int.add_zero]
    rfl
  · rw [htaking rfl, committing_commit he, hcount, Int.zero_add,
      addCount_wrap (p := s.taken.params) hovf]
    exact wrapN_emod _
  · rw [taking_take he hw h, committing_of_nextEvent he rfl, hcount, hrdata, step_countW h,
      Int.add_zero, Int.add_zero]
    exact (congrArg (· % _) (sintN_patternN_eq_wrapN (countW_pos s.params) s.count)).trans
      (wrapN_emod _)
  · cases (nextIs_of_nextEvent he _).symm.trans hr

/-- A run that goes on and avoids a step takes a first step that is none such, and goes on so. -/
theorem runAvoids_succ_cases {p : Event → Bool} {k : Nat} {s u : State} (h : step s = .next u)
    (hav : runAvoids p (k + 1) s = true) : s.nextIs p = false ∧ runAvoids p k u = true := by
  simpa [runAvoids_succ p k h] using hav

/-- Settles O53: `stepConservesCount` summed over the run. -/
theorem committedDeltasConserved : Obligations.CommittedDeltasConserved := by
  intro k
  induction k with
  | zero =>
    intro s t _ hrun _
    cases (run_zero s).symm.trans hrun
    simp [runSum]
  | succ k ih =>
    intro s t hovf hrun hav
    obtain ⟨u, hu, hrun⟩ := run_succ_cases hrun
    obtain ⟨hnext, hav⟩ := runAvoids_succ_cases hu hav
    have hstep : s.taking + u.count ≡ s.count + s.committing [ZMOD 2 ^ s.countW] :=
      stepConservesCount s u hovf hu hnext
    have hrest : runSum State.taking k u + t.count ≡ u.count + runSum State.committing k u
        [ZMOD 2 ^ s.countW] :=
      step_countW hu ▸ ih u t ((congrArg Params.ovf (step_params hu)).trans hovf) hrun hav
    rw [runSum_succ _ k hu, runSum_succ _ k hu]
    calc s.taking + runSum State.taking k u + t.count
        = s.taking + (runSum State.taking k u + t.count) := Int.add_assoc _ _ _
      _ ≡ s.taking + (u.count + runSum State.committing k u) [ZMOD 2 ^ s.countW] :=
          hrest.add_left _
      _ = s.taking + u.count + runSum State.committing k u := (Int.add_assoc _ _ _).symm
      _ ≡ s.count + s.committing + runSum State.committing k u [ZMOD 2 ^ s.countW] :=
          hstep.add_right _
      _ = s.count + (s.committing + runSum State.committing k u) := Int.add_assoc _ _ _

/-- What every step without the property keeps holds after every run that avoids the property. -/
theorem run_avoiding_keeps {P : State → Prop} {p : Event → Bool}
    (hP : ∀ s t, P s → step s = .next t → s.nextIs p = false → P t) :
    ∀ (k : Nat) (s t : State), P s → Host.Core.run core k s = .next t → runAvoids p k s = true → P t
  | 0, s, t, h, hrun, _ => by
    cases (run_zero s).symm.trans hrun
    exact h
  | k + 1, s, t, h, hrun, hav => by
    obtain ⟨u, hu, hrun⟩ := run_succ_cases hrun
    obtain ⟨hnext, hav⟩ := runAvoids_succ_cases hu hav
    exact run_avoiding_keeps hP k u t (hP s u h hu hnext) hrun hav

/-- A run that avoids two kinds of steps avoids each. -/
theorem runAvoids_mono {p q : Event → Bool} (hpq : ∀ e, q e = true → p e = true) {k : Nat}
    {s t : State} (hrun : Host.Core.run core k s = .next t) (hav : runAvoids p k s = true) :
    runAvoids q k s = true := by
  induction k generalizing s with
  | zero => rfl
  | succ k ih =>
    obtain ⟨u, hu, hrun⟩ := run_succ_cases hrun
    obtain ⟨hnext, hav⟩ := runAvoids_succ_cases hu hav
    obtain ⟨e, he, -, -⟩ := step_next hu
    rw [nextIs_of_nextEvent he] at hnext
    have hq : q e = false := Bool.eq_false_iff.mpr fun hqe => by cases (hpq e hqe).symm.trans hnext
    rw [runAvoids_succ q k hu, nextIs_of_nextEvent he, hq, ih hrun hav]
    rfl

/-- A run without a TAKE returns nothing to the host. -/
theorem runSum_taking_eq_zero {k : Nat} {s t : State} (hrun : Host.Core.run core k s = .next t)
    (hav : runAvoids Event.isTake k s = true) : runSum State.taking k s = 0 := by
  induction k generalizing s with
  | zero => rfl
  | succ k ih =>
    obtain ⟨u, hu, hrun⟩ := run_succ_cases hrun
    obtain ⟨hnext, hav⟩ := runAvoids_succ_cases hu hav
    rw [runSum_succ _ k hu, taking_of_not_take hnext, ih hrun hav]
    rfl

theorem run_countW {k : Nat} {s t : State} (hrun : Host.Core.run core k s = .next t) :
    t.countW = s.countW :=
  run_keeps (P := fun u => u.countW = s.countW) (fun _ _ hu h => (step_countW h).trans hu) k s t rfl
    hrun

/-- Settles O52: without a TAKE, by `committedDeltasConserved`, COUNT is congruent to the sum
committed, and a TAKE wraps it. -/
theorem takeReturnsCommittedSum : Obligations.TakeReturnsCommittedSum := by
  intro k s t hovf hzero hrun hav
  have htake := runSum_taking_eq_zero hrun
    (runAvoids_mono (q := Event.isTake) (fun e h => by simp [h]) hrun hav)
  have hsum := committedDeltasConserved k s t hovf hrun
    (runAvoids_mono (q := Event.isReset) (fun e h => by simp [h]) hrun hav)
  rw [htake, hzero, Int.zero_add, Int.zero_add, ← run_countW hrun] at hsum
  refine ⟨_, exec_take t, ?_, rfl⟩
  rw [← run_countW hrun, ← wrapN_congr hsum]
  exact sintN_patternN_eq_wrapN (countW_pos t.params) t.count

/-- A step adds at most one to the size of COUNT, and only a COMMIT adds. -/
theorem step_count_natAbs_le {s t : State} (h : step s = .next t) :
    (t.count.natAbs : Int) ≤ s.count.natAbs + if s.nextIs Event.isCommit then 1 else 0 := by
  obtain ⟨e, he, htook, -⟩ := step_next h
  rw [nextIs_of_nextEvent he]
  rcases htook.count_cases with ⟨-, hcount⟩ | ⟨x, rfl, hcount⟩ | ⟨w, -, -, hcount, -⟩ | ⟨-, hcount⟩
  · rw [hcount, taken_count]
    split <;> omega
  · have hadd := addCount_natAbs_le s.params s.count (s.delta.get x).toInt
    have hdelta := delta_natAbs_le (s.delta.get x)
    rw [hcount, Event.isCommit, if_pos rfl]
    exact_mod_cast hadd.trans (Nat.add_le_add_left hdelta _)
  · rw [hcount]
    split <;> omega
  · rw [hcount]
    split <;> omega

/-- The size of COUNT grows over a run by at most the number of its COMMITs. -/
theorem run_count_natAbs_le {k : Nat} {s t : State} (hrun : Host.Core.run core k s = .next t) :
    (t.count.natAbs : Int) ≤
      s.count.natAbs + runSum (fun u => if u.nextIs Event.isCommit then 1 else 0) k s := by
  induction k generalizing s with
  | zero =>
    cases (run_zero s).symm.trans hrun
    simp [runSum]
  | succ k ih =>
    obtain ⟨u, hu, hrun⟩ := run_succ_cases hrun
    have hstep := step_count_natAbs_le hu
    have hrest := ih hrun
    rw [runSum_succ _ k hu]
    omega

/-- Settles O55: `run_count_natAbs_le` from 0. -/
theorem countBoundedByCommits : Obligations.CountBoundedByCommits := by
  intro k s t hzero hrun
  simpa [hzero] using run_count_natAbs_le hrun

/-- A zeroed COUNT stays 0 until a COMMIT. -/
theorem step_count_zero {s t : State} (hzero : s.count = 0) (h : step s = .next t)
    (hc : s.nextIs Event.isCommit = false) : t.count = 0 := by
  have hle := step_count_natAbs_le h
  simp only [hc, hzero] at hle
  simpa using hle

/-- Settles O56: the first TAKE leaves COUNT 0, which only a COMMIT would change. -/
theorem takeAgainReturnsZero : Obligations.TakeAgainReturnsZero := by
  intro k s u t hu hrun hav
  cases (exec_take s).symm.trans hu
  exact exec_take_count_zero (run_avoiding_keeps (P := fun v => v.count = 0)
    (fun _ _ => step_count_zero) k _ t rfl hrun hav)

/-- A TAKE line and a COMMIT line: the TAKE answers the count before, the delta is left in COUNT. -/
theorem run_take_commit {s : State} {x : Src} {rest : List Event}
    (htop : s.stack.getLast? = some x) (hph : s.phase.get x = .sampled)
    (hline : s.script = .host 0x2000#16 :: .commit x :: rest) :
    Host.Core.run core 2 s = .next { leaveService x s with
      script := rest, rdata := patternN s.countW s.count, count := (s.delta.get x).toInt } := by
  rw [← addCount_zero_delta s.params, run_next (step_take hline)]
  refine (run_next (step_commit_next ?_ ?_ ?_) 0).trans (run_zero _)
  exacts [rfl, htop, hph]

/-- Settles O41: the two runs of two lines; COUNT in range reads back from its pattern. -/
theorem takeCommitOrders : Obligations.TakeCommitOrders := by
  intro s x rest htop hph hc
  have hw : 0 < s.countW := countW_pos s.params
  exact ⟨fun hline => ⟨_, run_take_commit htop hph hline, sintN_patternN hw hc, rfl⟩,
    fun hline => ⟨_, run_commit_take htop hph hline, sintN_patternN hw (addCount_inSint _ _ _), rfl⟩⟩

/-- `s` with another COUNT. -/
def State.withCount (s : State) (c : Int) : State := { s with count := c }

/-- A host command other than TAKE does the same whatever COUNT holds. -/
theorem exec_withCount {i : Instr} {s t : State} (h : exec i s = .next t) (hi : i ≠ .take) (c : Int) :
    exec i (s.withCount c) = .next (t.withCount c) := by
  cases i with
  | take => exact absurd rfl hi
  | init pa pb =>
    by_cases hs : s.stack = []
    · cases (exec_init_idle hs pa pb).symm.trans h
      exact exec_init_idle (s := s.withCount c) hs pa pb
    · cases (exec_init_busy hs pa pb).symm.trans h
      exact exec_init_busy (s := s.withCount c) hs pa pb
  | _ => cases h; rfl

/-- Settles O22: TAKE's effect is its definition; the other commands leave COUNT and do not read it. -/
theorem noPlainCounterAccess : Obligations.NoPlainCounterAccess := by
  intro i s t c h
  refine ⟨?_, fun hi => ⟨(exec_frame h).count hi, exec_withCount h hi c⟩⟩
  rintro rfl
  cases (exec_take s).symm.trans h
  rfl

/-- An agent's step that is no COMMIT, TAKE or RESET does the same whatever COUNT holds. -/
theorem agentStep_withCount {e : Event} {s t : State} (h : agentStep e s = .next t)
    (he : e.sparesCount) (c : Int) : agentStep e (s.withCount c) = .next (t.withCount c) := by
  obtain ⟨hcommit, htake, hreset⟩ := he
  cases agentStep_next h with
  | drive l v =>
    show Host.Outcome.next (driveLine l v (s.withCount c)) = _
    rw [driveLine_spec, driveLine_spec]
    rfl
  | grant x _ hx => exact grantStep_some (s := s.withCount c) hx
  | sample _ _ hx => exact if_pos hx
  | commit => cases hcommit
  | reset => cases hreset
  | illegal w _ _ hw => simp only [agentStep, hostStep, hw]; rfl
  | command w i _ _ hw hx =>
    have hi : i ≠ .take := by
      rintro rfl
      simp [Event.isTake, hw] at htake
    simp only [agentStep, hostStep, hw]
    exact exec_withCount hx hi c

/-- The choice of the next step does not read COUNT. -/
theorem nextEvent_withCount (s : State) (c : Int) : (s.withCount c).nextEvent = s.nextEvent := by
  unfold State.nextEvent State.chosen State.internalChoice
  simp only [show (s.withCount c).script = s.script from rfl,
    show (s.withCount c).grantee = s.grantee from rfl,
    show (s.withCount c).channelStep = s.channelStep from rfl]
  cases s.script <;> cases s.grantee <;> cases s.channelStep <;> rfl

/-- Settles O23: the step is an agent's step that spares COUNT, and the same one is chosen whatever
COUNT holds. -/
theorem countTouchedOnlyByCommitAndTake : Obligations.CountTouchedOnlyByCommitAndTake := by
  intro s t c h hc ht hr
  obtain ⟨e, he, htook, -⟩ := step_next h
  rw [nextIs_of_nextEvent he] at hc ht hr
  rw [step_taken he] at h
  refine ⟨?_, (step_taken ((nextEvent_withCount s c).trans he)).trans
    (agentStep_withCount h ⟨hc, ht, hr⟩ c)⟩
  rcases htook.count_cases with ⟨-, hcount⟩ | ⟨x, rfl, -⟩ | ⟨w, rfl, hw, -⟩ | ⟨rfl, -⟩
  · exact hcount
  · cases hc
  · simp [Event.isTake, hw] at ht
  · cases hr

end Sys2Proof.Machine
end

section
/-! Proofs, the frame of every step: what each agent's step may write, what it leaves, and which lines
stop. -/

namespace Sys2Proof.Machine

/-- Settles O25: the four drives and pull-ups, each by the definition of the read. -/
theorem readLevelOfLine : Obligations.ReadLevelOfLine := by
  intro s l
  have hread (v : Bool) (n : Nat) (h : levelAt (s.drv.get l) s.armed s.draws = (v, n)) :
      readLevel l s = (v, { s with draws := n }) := by rw [readLevel, h]
  refine ⟨fun hd => hread _ _ ?_, fun hd => hread _ _ ?_, fun hd ha => hread _ _ ?_,
    fun hd ha => hread _ _ ?_⟩
  · rw [hd]; rfl
  · rw [hd]; rfl
  · rw [hd, ha]; rfl
  · rw [hd, ha]; rfl

/-- `s` with another COUNT, other priorities and deltas and another STACK. -/
def State.withUnseen (s : State) (c : Int) (p : Pair (BitVec 4)) (d : Pair Delta) (k : List Src) :
    State :=
  { s with count := c, prio := p, delta := d, stack := k }

/-- STAT does the same whatever COUNT, PRIO, DELTA and STACK hold (10_state.md R33). -/
theorem exec_stat_withUnseen {s t : State} (h : exec .stat s = .next t) (c : Int)
    (p : Pair (BitVec 4)) (d : Pair Delta) (k : List Src) :
    exec .stat (s.withUnseen c p d k) = .next (t.withUnseen c p d k) := by
  have hview (u : State) (la lb : Bool) :
      statusView (u.withUnseen c p d k) la lb = statusView u la lb := rfl
  cases h
  exact congrArg (fun v : BitVec 12 => Host.Outcome.next
    (respond v.toNat ((readLevel .b (readLevel .a s).2).2.withUnseen c p d k))) (hview _ _ _)

/-- Settles O20: `exec_stat_withUnseen`, which leaves RDATA as it is. -/
theorem statHidesCounter : Obligations.StatHidesCounter := by
  intro s t t' c p d k h h'
  cases (exec_stat_withUnseen h c p d k).symm.trans h'
  exact ⟨rfl, rfl⟩

/-- STAT of an armed block answers the view of its lines' drives and is no draw. -/
theorem exec_stat_armed {s : State} (ha : s.armed = true) :
    exec .stat s = .next (respond
      (statusView s (decide (s.drv.get .a ≠ .low)) (decide (s.drv.get .b ≠ .low))).toNat s) := by
  show execStat s = _
  simp only [execStat, readLevel_armed _ ha]

/-- Settles O21: the view of an armed block does not read RDATA, which is all STAT writes. -/
theorem statIsIdempotent : Obligations.StatIsIdempotent := by
  intro s t ha h
  cases (exec_stat_armed ha).symm.trans h
  exact exec_stat_armed (s := respond _ s) ha

/-- Settles O24: an accepted INIT's PRIO are its operands, taken apart by division. -/
theorem priorityOperandsTakeEffect : Obligations.PriorityOperandsTakeEffect := fun _ pa pb hs =>
  ⟨_, exec_init_idle hs pa pb, pre_eq_div _ .a, sub_eq_mod _ .a, pre_eq_div _ .b, sub_eq_mod _ .b⟩

/-- No agent's step is refused (00_scope.md R16). -/
theorem agentStep_ne_refused (e : Event) (s : State) (r : Refusal) : agentStep e s ≠ .refused r := by
  intro h
  cases hi : e.isInternal with
  | false =>
    obtain ⟨t, ht⟩ := enables_iff.mp (enables_input (s := s) hi)
    cases ht.symm.trans h
  | true =>
    cases e with
    | grant => simp only [agentStep, grantStep] at h; split at h <;> cases h
    | sample x => simp only [agentStep, sampleStep] at h; split at h <;> cases h
    | commit x => simp only [agentStep, commitStep] at h; split at h <;> cases h
    | _ => cases hi

/-- Settles O11: a step is an agent's step or the stop of a quiescent block. -/
theorem stepNeverRefuses : Obligations.StepNeverRefuses := by
  intro s r
  unfold step chosenStep
  split
  · exact agentStep_ne_refused _ _ r
  · nofun

/-- Settles O13: each line's trigger is false in the state it meets. -/
theorem disabledLinesStop : Obligations.DisabledLinesStop := by
  refine fun s rest x => ⟨fun hline hnone => ?_, fun hline hnot => ?_, fun hline hnot => ?_⟩
  · have hg : ({ s with script := rest } : State).grantee = none := grantee_none.mpr hnone
    rw [step_grant hline, grantStep, hg]
  · rw [step_sample hline]
    exact if_neg (mt maySample_iff.mp hnot)
  · rw [step_commit hline]
    exact if_neg (mt mayCommit_iff.mp hnot)

/-- Settles O33: the two triggers. -/
theorem onlyTopChannelSteps : Obligations.OnlyTopChannelSteps := fun _ _ =>
  ⟨step_sample_goes_on_iff, step_commit_goes_on_iff⟩

/-- Settles O44: of the agents' steps only HOST's and RESET write these elements. -/
theorem configurationStable : Obligations.ConfigurationStable := by
  intro s t h hhost hreset
  obtain ⟨e, he, htook, -⟩ := step_next h
  rw [nextIs_of_nextEvent he] at hhost hreset
  cases htook with
  | drive l v => rw [driveLine_spec]; exact ⟨rfl, rfl, rfl, rfl, rfl, rfl⟩
  | grant => exact ⟨rfl, rfl, rfl, rfl, rfl, rfl⟩
  | sample x =>
    obtain ⟨_, _, -, -, hx⟩ := takeSample_spec x s.taken
    rw [hx]
    exact ⟨rfl, rfl, rfl, rfl, rfl, rfl⟩
  | commit => exact ⟨rfl, rfl, rfl, rfl, rfl, rfl⟩
  | command => cases hhost
  | illegal => cases hhost
  | reset => cases hreset

/-- A step other than a choice between two internal steps is taken from the state with its line used
up. -/
theorem taken_of_no_choice {s : State} (h : s.choiceDraws = 0) :
    s.taken = { s with script := s.script.tail } := by
  rw [State.taken, h]
  rfl

/-- Settles O12: each agent's step as `Took` says it, from the state with the line used up; the draw of a
choice is counted in that state for an internal step alone. -/
theorem writeAccessByStep : Obligations.WriteAccessByStep := by
  intro s t e hn h
  obtain ⟨e', he', htook, hline⟩ := step_next h
  cases hn.symm.trans he'
  cases htook with
  | drive l v =>
    rw [taken_of_no_choice (hline rfl).1, driveLine_spec]
    simp [State.readDraws]
  | grant x _ hx => exact ⟨x, hx, by simp [enterService]⟩
  | sample x =>
    obtain ⟨_, _, -, -, hx⟩ := takeSample_spec x s.taken
    rw [hx]
    simp
  | commit x => simp [leaveService]
  | illegal w e _ hw =>
    simp only [hw, taken_of_no_choice (hline rfl).1]
    rfl
  | command w i _ _ hw hx =>
    rw [taken_of_no_choice (hline rfl).1] at hx
    simp only [hw]
    cases i with
    | nop => cases hx; rfl
    | init pa pb =>
      by_cases hs : s.stack = []
      · cases (exec_init_idle (s := { s with script := s.script.tail }) hs pa pb).symm.trans hx
        exact .inl rfl
      · cases (exec_init_busy (s := { s with script := s.script.tail }) hs pa pb).symm.trans hx
        exact .inr rfl
    | take => cases hx; rfl
    | seten ea eb => cases hx; rfl
    | stat =>
      obtain ⟨_, _, -, -, hstat⟩ := execStat_spec { s with script := s.script.tail }
      cases hstat.symm.trans hx
      rfl
  | reset =>
    rw [taken_of_no_choice (hline rfl).1]
    exact ⟨rfl, rfl, rfl, rfl, rfl⟩

end Sys2Proof.Machine
end

section
/-! Proofs, services: a whole service of one source, re-entry, masking, and how the block comes to rest
once no line is left. -/

namespace Sys2Proof.Machine

/-- The delta that a SAMPLE of an armed block takes from the two drives: a line reads 0 exactly when it
is driven low. -/
def drivenDelta (drv : Pair Drive) (x : Src) : Delta :=
  muxDelta x (decide (drv.get .a ≠ .low)) (decide (drv.get .b ≠ .low))

/-- The mux of two driven lines (41_service.md R81). -/
theorem drivenDelta_toInt (drv : Pair Drive) (x : Src) :
    (drivenDelta drv x).toInt =
      if drv.a = .low ∧ drv.b = .low then (if x = .a then 1 else -1) else 0 := by
  obtain ⟨da, db⟩ := drv
  cases da <;> cases db <;> cases x <;> rfl

/-- A SAMPLE line of an armed block's top channel stores the delta of the drives and draws nothing. -/
theorem step_sample_armed {s : State} {x : Src} {rest : List Event} (ha : s.armed = true)
    (hline : s.script = .sample x :: rest) (htop : s.stack.getLast? = some x)
    (hph : s.phase.get x = .granted) :
    step s = .next { s with
      script := rest
      delta := s.delta.set x (drivenDelta s.drv x)
      phase := s.phase.set x .sampled } := by
  have harmed : ({ s with script := rest } : State).armed = true := ha
  rw [step_sample_next hline htop hph]
  simp only [takeSample, readLevel_armed _ harmed]
  rfl

/-- Settles O38: three lines' steps; the source is IDLE before and after, and STACK is as before once the
push is popped. -/
theorem serviceRunsToCompletion : Obligations.ServiceRunsToCompletion := by
  intro s x rest ha hx hline
  obtain ⟨-, -, hidle, -⟩ := eligible_spec (grantee_eligible hx)
  refine ⟨_, drivenDelta_toInt s.drv x, ?_⟩
  have hsample := step_sample_armed
    (s := enterService x { s with script := [.sample x, .commit x] ++ rest }) ha rfl
    List.getLast?_concat (Pair.get_set_same _ _ _)
  refine (run_next (step_grant_next hline hx) 2).trans ((run_next hsample 1).trans ?_)
  refine (run_next (step_commit_next rfl ?_ (Pair.get_set_same _ _ _)) 0).trans ?_
  · exact List.getLast?_concat
  · have hphase : s.phase.set x .idle = s.phase := by rw [← hidle, Pair.set_get]
    simp [run_zero, leaveService, hphase]

/-- A block with a source in service is armed (70_reset_and_hazards.md R116). -/
theorem State.Inv.armed_of_mem {s : State} (hinv : s.Inv) {x : Src} (hmem : x ∈ s.stack) :
    s.armed = true := by
  obtain ⟨y, hy⟩ := Option.ne_none_iff_exists'.mp
    (mt List.getLast?_eq_none_iff.mp (List.ne_nil_of_mem hmem))
  exact hinv.armed_of_top hy

/-- Settles O39: a grant takes an eligible source; a DRIVE low of an armed line latches and leaves STACK
and PHASE. -/
theorem noReentry : Obligations.NoReentry := by
  refine ⟨fun s t hinv hn h => ?_, fun s x rest hinv hmem hd hline => ?_⟩
  · obtain ⟨y, hy⟩ := (step_grant_goes_on_iff hn).mp ⟨t, h⟩
    obtain ⟨x, hx⟩ := exists_grantee hy
    obtain ⟨hpend, -, hidle, -⟩ := eligible_spec (grantee_eligible hx)
    cases (step_grant_taken hn hx).symm.trans h
    exact ⟨x, rfl, hidle, hinv.not_mem_of_eligible (grantee_eligible hx), hpend⟩
  · have ha := hinv.armed_of_mem hmem
    refine ⟨_, step_drive hline, driveLine_pend_edge (s := { s with script := rest }) ha hd, ?_⟩
    rw [driveLine_spec]
    exact ⟨rfl, rfl⟩

/-- What an agent's step does to STACK: a GRANT pushes, a COMMIT pops, a RESET empties it, any other
step leaves it (10_state.md R24). -/
theorem Took.stack_cases {e : Event} {s t : State} (h : Took e s t) :
    t.stack = s.stack ∨ (∃ x, e = .grant ∧ s.grantee = some x ∧ t.stack = s.stack ++ [x]) ∨
      (∃ x, e = .commit x ∧ t.stack = s.stack.dropLast) ∨ (e = .reset ∧ t.stack = []) := by
  cases h with
  | drive l v => rw [driveLine_spec]; exact .inl rfl
  | grant x _ hx => exact .inr (.inl ⟨x, rfl, hx, rfl⟩)
  | sample => exact .inl rfl
  | commit x => exact .inr (.inr (.inl ⟨x, rfl, rfl⟩))
  | command _ _ _ _ _ hx => exact .inl (exec_frame hx).stack
  | illegal => exact .inl rfl
  | reset => exact .inr (.inr (.inr ⟨rfl, rfl⟩))

/-- Settles O40: a masked source is not eligible, so no step pushes; a COMMIT does not read the
enables. -/
theorem maskingHoldsGrantsOnly : Obligations.MaskingHoldsGrantsOnly := by
  intro s hen
  have hnone : s.grantee = none :=
    grantee_none.mpr fun x => eligible_masked (by cases x <;> simp [hen])
  refine ⟨hnone, fun t h => ⟨fun hn => ?_, ?_⟩, fun x rest htop hph hline => ?_⟩
  · obtain ⟨x, hx⟩ := (step_grant_goes_on_iff hn).mp ⟨t, h⟩
    cases (grantee_none.mp hnone x).symm.trans hx
  · obtain ⟨e, -, htook, -⟩ := step_next h
    rcases htook.stack_cases with hs | ⟨x, -, hx, -⟩ | ⟨x, -, hs⟩ | ⟨-, hs⟩
    · rw [hs, taken_stack]
    · cases hnone.symm.trans hx
    · simp [hs]
    · simp [hs]
  · exact ⟨_, step_commit_next hline htop hph, rfl⟩

/-- The step of the channel on top is enabled (41_service.md R78). -/
theorem channelStep_enabled {s : State} {e : Event} (h : s.channelStep = some e) :
    s.enables e = true := by
  unfold State.channelStep at h
  split at h
  · cases h
  · next x htop =>
    split at h
    · cases h
    · next hph => cases h; exact enables_sample.mpr ⟨htop, hph⟩
    · next hph => cases h; exact enables_commit.mpr ⟨htop, hph⟩

/-- A GRANT is enabled exactly when there is a source to grant. -/
theorem enables_grant_iff_grantee {s : State} : s.enables .grant = true ↔ s.grantee ≠ none := by
  rw [enables_grant, Ne, grantee_none]
  simp

/-- An internal step that the machine chooses once no line is left is enabled. -/
theorem nextEvent_enabled {s : State} {e : Event} (hline : s.script = [])
    (h : s.nextEvent = some e) : s.enables e = true := by
  unfold State.nextEvent State.chosen State.internalChoice at h
  rw [hline] at h
  cases hg : s.grantee with
  | none =>
    cases hc : s.channelStep with
    | none => simp [hg, hc] at h
    | some f =>
      obtain rfl : f = e := by simpa [hg, hc] using h
      exact channelStep_enabled hc
  | some x =>
    have hgrant : s.enables .grant = true := enables_grant_iff_grantee.mpr (by simp [hg])
    cases hc : s.channelStep with
    | none =>
      obtain rfl : Event.grant = e := by simpa [hg, hc] using h
      exact hgrant
    | some f =>
      cases hb : Config.freeBit s.draws with
      | false =>
        obtain rfl : f = e := by simpa [hg, hc, hb] using h
        exact channelStep_enabled hc
      | true =>
        obtain rfl : Event.grant = e := by simpa [hg, hc, hb] using h
        exact hgrant

/-- With no line left the machine has a next step exactly when an internal step is enabled. -/
theorem nextEvent_none_iff {s : State} (hline : s.script = []) :
    s.nextEvent = none ↔ s.grantee = none ∧ s.channelStep = none := by
  unfold State.nextEvent State.chosen State.internalChoice
  rw [hline]
  cases hg : s.grantee <;> cases hc : s.channelStep <;> simp

/-- In a state meeting the invariant a service in progress has a next step. -/
theorem State.Inv.channelStep_none_iff {s : State} (hinv : s.Inv) :
    s.channelStep = none ↔ s.stack = [] := by
  unfold State.channelStep State.top
  cases htop : s.stack.getLast? with
  | none => simpa using List.getLast?_eq_none_iff.mp htop
  | some x =>
    have hmem := List.mem_of_getLast? htop
    have hph := (hinv.inService x).mp hmem
    have hne := List.ne_nil_of_mem hmem
    cases hx : s.phase.get x with
    | idle => exact absurd hx hph
    | granted => simp [hne, hx]
    | sampled => simp [hne, hx]

/-- On an idle block a source is eligible exactly when it is pending and enabled. -/
theorem State.Inv.eligible_iff_of_idle {s : State} (hinv : s.Inv) (hs : s.stack = []) (x : Src) :
    s.eligible x = true ↔ s.pend.get x = true ∧ s.en.get x = true := by
  have hidle : s.phase.get x = .idle := by
    by_contra hph
    have hmem := (hinv.inService x).mpr hph
    rw [hs] at hmem
    cases hmem
  simp [eligible_iff, hidle, hs]

/-- A state meeting the invariant is quiescent exactly when neither a GRANT nor a channel's step is
enabled (70_reset_and_hazards.md R129). -/
theorem State.Inv.quiescent_iff {s : State} (hinv : s.Inv) :
    s.Quiescent ↔ s.grantee = none ∧ s.channelStep = none := by
  have hx (hs : s.stack = []) (x : Src) :
      s.eligible x = false ↔ s.pend.get x = false ∨ s.en.get x = false := by
    rw [← Bool.not_eq_true, hinv.eligible_iff_of_idle hs, not_and_or, Bool.not_eq_true,
      Bool.not_eq_true]
  rw [hinv.channelStep_none_iff, grantee_none, and_comm]
  exact and_congr_right fun hs => forall_congr' fun x => (hx hs x).symm

/-- A machine without a next step stops as quiescent, and one with an enabled step does not. -/
theorem step_quiescent_iff {s : State} (hline : s.script = []) :
    step s = .fault .quiescent ↔ s.nextEvent = none := by
  constructor
  · intro h
    cases he : s.nextEvent with
    | none => rfl
    | some e =>
      obtain ⟨t, ht⟩ := step_goes_on_iff.mpr ⟨e, he, nextEvent_enabled hline he⟩
      cases ht.symm.trans h
  · exact fun h => step_none (Option.map_eq_none_iff.mp h)

/-- Settles O50: the stop is that of a machine without a next step, which is quiescence. -/
theorem quiescentExactlyWhenNoStep : Obligations.QuiescentExactlyWhenNoStep := fun _ hinv hline =>
  (step_quiescent_iff hline).trans ((nextEvent_none_iff hline).trans hinv.quiescent_iff.symm)

/-- The internal steps that a phase still asks for: SAMPLE and COMMIT, or COMMIT. -/
def Phase.stepsLeft : Phase → Nat
  | .idle => 0
  | .granted => 2
  | .sampled => 1

/-- The internal steps that a source still asks for: three for a pending edge, and those of its phase. -/
def State.sourceWork (s : State) (x : Src) : Nat :=
  3 * (s.pend.get x).toNat + (s.phase.get x).stepsLeft

/-- The internal steps that the block still asks for without a new edge. -/
def State.work (s : State) : Nat := s.sourceWork .a + s.sourceWork .b

theorem work_eq (s : State) (x : Src) : s.work = s.sourceWork x + s.sourceWork x.other := by
  cases x with
  | a => rfl
  | b => exact Nat.add_comm _ _

theorem sourceWork_le (s : State) (x : Src) : s.sourceWork x ≤ 5 := by
  unfold State.sourceWork
  cases s.pend.get x <;> cases s.phase.get x <;> decide

theorem work_le (s : State) : s.work ≤ 10 :=
  Nat.add_le_add (sourceWork_le s .a) (sourceWork_le s .b)

/-- Steps that only source `x` sees change the work by what it does. -/
theorem work_lt {s t : State} {x : Src} (hpend : t.pend.get x.other = s.pend.get x.other)
    (hphase : t.phase.get x.other = s.phase.get x.other) (hx : t.sourceWork x < s.sourceWork x) :
    t.work < s.work := by
  have hother : t.sourceWork x.other = s.sourceWork x.other := by
    unfold State.sourceWork
    rw [hpend, hphase]
  rw [work_eq t x, work_eq s x, hother]
  omega

/-- Every internal step takes work off, and leaves the lines to come. -/
theorem Took.internal_work {e : Event} {s t : State} (h : Took e s t) (hi : e.isInternal = true) :
    t.work < s.work ∧ t.script = s.script := by
  cases h with
  | grant x _ hx =>
    obtain ⟨hpend, -, hidle, -⟩ := eligible_spec (grantee_eligible hx)
    exact ⟨work_lt (x := x) (by simp) (by simp)
      (by simp [State.sourceWork, hpend, hidle, Phase.stepsLeft]), rfl⟩
  | sample x _ hx =>
    obtain ⟨-, hph⟩ := maySample_iff.mp hx
    obtain ⟨_, _, -, -, hs⟩ := takeSample_spec x s
    rw [hs]
    exact ⟨work_lt (x := x) (by simp) (by simp) (by simp [State.sourceWork, hph, Phase.stepsLeft]),
      rfl⟩
  | commit x _ hx =>
    obtain ⟨-, hph⟩ := mayCommit_iff.mp hx
    exact ⟨work_lt (x := x) (by simp) (by simp) (by simp [State.sourceWork, hph, Phase.stepsLeft]),
      rfl⟩
  | _ => cases hi

/-- With no line left, a state meeting the invariant that is not quiescent takes an internal step. -/
theorem State.Inv.internal_step {s : State} (hinv : s.Inv) (hline : s.script = [])
    (hq : ¬ s.Quiescent) : ∃ t, step s = .next t ∧ t.work < s.work ∧ t.script = [] := by
  rw [hinv.quiescent_iff, ← nextEvent_none_iff hline] at hq
  obtain ⟨e, he⟩ := Option.ne_none_iff_exists'.mp hq
  obtain ⟨t, ht⟩ := step_goes_on_iff.mpr ⟨e, he, nextEvent_enabled hline he⟩
  have hi : e.isInternal = true := by
    rcases (chosen_taken he).2 with hs | ⟨-, hi⟩
    · cases hs.symm.trans hline
    · exact hi
  have htook := agentStep_next ((step_taken he).symm.trans ht)
  obtain ⟨hwork, hscript⟩ := htook.internal_work hi
  exact ⟨t, ht, hwork, hscript.trans (by rw [taken_script, hline]; rfl)⟩

/-- With no line left the machine comes to rest within as many steps as there is work. -/
theorem run_reaches_quiescent (n : Nat) (s : State) (hinv : s.Inv) (hline : s.script = [])
    (hwork : s.work ≤ n) :
    ∃ k t, k ≤ n ∧ Host.Core.run core k s = .next t ∧ t.Inv ∧ t.Quiescent ∧ t.script = [] := by
  by_cases hq : s.Quiescent
  · exact ⟨0, s, Nat.zero_le n, run_zero s, hinv, hq, hline⟩
  · obtain ⟨u, hu, hlt, hscript⟩ := hinv.internal_step hline hq
    cases n with
    | zero => omega
    | succ n =>
      obtain ⟨k, t, hk, hrun, ht⟩ :=
        run_reaches_quiescent n u (stepKeepsInv s u hinv hu) hscript (by omega)
      exact ⟨k + 1, t, by omega, (run_next hu k).trans hrun, ht⟩

/-- Settles O51: there is work for at most ten steps, and at rest the machine stops. -/
theorem internalRunReachesQuiescence : Obligations.InternalRunReachesQuiescence := by
  intro s hinv hline
  obtain ⟨k, t, hk, hrun, ht, hq, hscript⟩ := run_reaches_quiescent 10 s hinv hline (work_le s)
  exact ⟨k, t, hk, hrun, hq, hscript, (quiescentExactlyWhenNoStep t ht hscript).mpr hq⟩

end Sys2Proof.Machine
end

section
/-! Proofs, infinite runs: building one step by step, a policy of the block's own steps that is weakly
fair, runs and scripts, what fairness gives, and the run that starves B. -/

namespace Sys2Proof.Machine

/-! ### Building a run -/

/-- The state that the step leaves; where there is no step, or it is not enabled, the state itself. -/
def State.after (s : State) (oe : Option Event) : State :=
  match oe.map (agentStep · s) with
  | some (.next t) => t
  | _ => s

theorem State.agentStep_after {s : State} {e : Event} (h : s.enables e = true) :
    agentStep e s = .next (s.after (some e)) := by
  obtain ⟨t, ht⟩ := enables_iff.mp h
  simp only [State.after, Option.map_some, ht]

/-- The states of the run from `s` in which the step at each instant is picked by the state there. -/
def pickedStates (pick : Nat → State → Option Event) (s : State) : Nat → State
  | 0 => s
  | n + 1 => (pickedStates pick s n).after (pick n (pickedStates pick s n))

/-- The steps of that run. -/
def pickedSteps (pick : Nat → State → Option Event) (s : State) (n : Nat) : Option Event :=
  pick n (pickedStates pick s n)

/-- Picking enabled steps makes a run. -/
theorem picked_isRun {pick : Nat → State → Option Event}
    (hen : ∀ n s e, pick n s = some e → s.enables e = true) (s : State) :
    IsRun (pickedStates pick s) (pickedSteps pick s) := by
  intro n
  cases hp : pickedSteps pick s n with
  | none => exact congrArg (pickedStates pick s n).after hp
  | some e =>
    show agentStep e _ = .next ((pickedStates pick s n).after (pickedSteps pick s n))
    rw [hp]
    exact State.agentStep_after (hen n _ e hp)

/-- The block's own step that comes first: a GRANT, or else the step of the channel on top. -/
def State.ownStep (s : State) : Option Event :=
  if s.grantee = none then s.channelStep else some .grant

theorem ownStep_enabled {s : State} {e : Event} (h : s.ownStep = some e) : s.enables e = true := by
  unfold State.ownStep at h
  split at h
  · exact channelStep_enabled h
  · next hg => cases h; exact enables_grant_iff_grantee.mpr hg

theorem ownStep_isInternal {s : State} {e : Event} (h : s.ownStep = some e) :
    e.isInternal = true := by
  unfold State.ownStep at h
  split at h
  · exact channelStep_isInternal h
  · cases h; rfl

/-- An enabled step of a channel is the step of the channel on top. -/
theorem channelStep_of_enabled {s : State} {e : Event} (hi : e.isInternal = true) (hg : e ≠ .grant)
    (hen : s.enables e = true) : s.channelStep = some e := by
  cases e with
  | grant => exact absurd rfl hg
  | sample x =>
    obtain ⟨htop, hph⟩ := enables_sample.mp hen
    simp only [State.channelStep, State.top, htop, hph]
  | commit x =>
    obtain ⟨htop, hph⟩ := enables_commit.mp hen
    simp only [State.channelStep, State.top, htop, hph]
  | _ => cases hi

theorem channelStep_enterService (s : State) (y : Src) :
    (enterService y s).channelStep = some (.sample y) := by
  simp [State.channelStep, State.top]

/-- A GRANT disables the step of the channel that was on top: it puts a source that was IDLE there. -/
theorem enterService_disables {s : State} {e : Event} {y : Src} (hy : s.grantee = some y)
    (hi : e.isInternal = true) (hg : e ≠ .grant) (hen : s.enables e = true) :
    (enterService y s).enables e = false := by
  obtain ⟨-, -, hidle, -⟩ := eligible_spec (grantee_eligible hy)
  refine Bool.eq_false_iff.mpr fun hafter => ?_
  cases (channelStep_enterService s y).symm.trans (channelStep_of_enabled hi hg hafter)
  obtain ⟨-, hgranted⟩ := enables_sample.mp hen
  cases hidle.symm.trans hgranted

/-- The step a run takes at an instant. -/
theorem IsRun.step {σ : Nat → State} {ε : Nat → Option Event} (hrun : IsRun σ ε) {n : Nat} {e : Event}
    (h : ε n = some e) : agentStep e (σ n) = .next (σ (n + 1)) := by
  have hn := hrun n
  rw [h] at hn
  exact hn

theorem IsRun.idle {σ : Nat → State} {ε : Nat → Option Event} (hrun : IsRun σ ε) {n : Nat}
    (h : ε n = none) : σ (n + 1) = σ n := by
  have hn := hrun n
  rw [h] at hn
  exact hn

/-- A run in which the block's own step is taken again and again, GRANT first, is weakly fair: what
stays enabled is either that step, or is disabled by the GRANT taken in its place. -/
theorem weaklyFair_of_ownSteps {σ : Nat → State} {ε : Nat → Option Event} (hrun : IsRun σ ε)
    (hown : ∀ n, ∃ m, n ≤ m ∧ ε m = (σ m).ownStep) : WeaklyFair σ ε := by
  intro e hi n hen
  obtain ⟨m, hm, hstep⟩ := hown n
  refine ⟨m, hm, ?_⟩
  have henm := hen m hm
  by_cases he : e = .grant
  · subst he
    rw [hstep, State.ownStep, if_neg (enables_grant_iff_grantee.mp henm)]
  · cases hg : (σ m).grantee with
    | none => rw [hstep, State.ownStep, if_pos hg, channelStep_of_enabled hi he henm]
    | some y =>
      have hgrant : ε m = some .grant := by rw [hstep, State.ownStep, if_neg (by simp [hg])]
      have hnext : enterService y (σ m) = σ (m + 1) :=
        Host.Outcome.next.inj ((grantStep_some hg).symm.trans (hrun.step hgrant))
      have hafter := hen (m + 1) (by omega)
      rw [← hnext, enterService_disables hg hi he henm] at hafter
      cases hafter

/-- At even instants the block's own step, at odd ones the input. -/
def pickWithInputs (inp : Nat → Option Event) (n : Nat) (s : State) : Option Event :=
  if n % 2 = 0 then s.ownStep else inp (n / 2)

/-- Settles O58: the run that picks the block's own step and an input in turn. -/
theorem fairRunForAnyInputs : Obligations.FairRunForAnyInputs := by
  intro s inp hinp
  have hpick (n : Nat) (u : State) (e : Event) (h : pickWithInputs inp n u = some e) :
      u.enables e = true := by
    unfold pickWithInputs at h
    split at h
    · exact ownStep_enabled h
    · exact enables_input (hinp _ _ h)
  have heven (n : Nat) : pickedSteps (pickWithInputs inp) s (2 * n) =
      (pickedStates (pickWithInputs inp) s (2 * n)).ownStep := if_pos (by omega)
  have hodd (n : Nat) : pickedSteps (pickWithInputs inp) s (2 * n + 1) = inp n := by
    rw [pickedSteps, pickWithInputs, if_neg (by omega)]
    congr 1
    omega
  have hrun := picked_isRun hpick s
  exact ⟨_, _, hrun, weaklyFair_of_ownSteps hrun fun n => ⟨2 * n, by omega, heven n⟩, rfl,
    fun n => ⟨hodd n, fun e he => ownStep_isInternal ((heven n).symm.trans he)⟩⟩

/-! ### Runs and scripts -/

theorem run_add {k : Nat} {s u : State} (h : Host.Core.run core k s = .next u) (j : Nat) :
    Host.Core.run core (k + j) s = Host.Core.run core j u := by
  induction k generalizing s with
  | zero =>
    cases (run_zero s).symm.trans h
    rw [Nat.zero_add]
  | succ k ih =>
    obtain ⟨v, hv, hrest⟩ := run_succ_cases h
    rw [Nat.add_right_comm, run_next hv, ih hrest]

/-- The step of one instant of a run, as a script of at most one line. -/
theorem IsRun.run_instant {σ : Nat → State} {ε : Nat → Option Event} (hrun : IsRun σ ε) (n : Nat)
    (rest : List Event) :
    Host.Core.run core (ε n).toList.length { σ n with script := (ε n).toList ++ rest } =
      .next { σ (n + 1) with script := rest } := by
  cases he : ε n with
  | none => rw [hrun.idle he]; rfl
  | some e => exact run_next (step_script (hrun.step he) rest) 0

/-- The first instants of a run, as a script. -/
theorem IsRun.run_lines {σ : Nat → State} {ε : Nat → Option Event} (hrun : IsRun σ ε) (k : Nat)
    (rest : List Event) :
    Host.Core.run core (linesOf ε k).length { σ 0 with script := linesOf ε k ++ rest } =
      .next { σ k with script := rest } := by
  induction k generalizing rest with
  | zero => rfl
  | succ k ih =>
    rw [linesOf, List.length_append, List.append_assoc, run_add (ih _)]
    exact hrun.run_instant k rest

/-- A sequence with another first element put before it. -/
def consSeq {α : Type} (a : α) (f : Nat → α) : Nat → α
  | 0 => a
  | n + 1 => f n

theorem IsRun.cons {σ : Nat → State} {ε : Nat → Option Event} (hrun : IsRun σ ε) {s : State}
    {e : Event} (h : agentStep e s = .next (σ 0)) :
    IsRun (consSeq s σ) (consSeq (some e) ε) := by
  intro n
  cases n with
  | zero => exact h
  | succ n => exact hrun n

theorem WeaklyFair.cons {σ : Nat → State} {ε : Nat → Option Event} (hfair : WeaklyFair σ ε)
    (s : State) (oe : Option Event) : WeaklyFair (consSeq s σ) (consSeq oe ε) := by
  intro e hi n hen
  obtain ⟨m, hm, he⟩ := hfair e hi n fun m hm => hen (m + 1) (by omega)
  exact ⟨m + 1, by omega, he⟩

theorem linesOf_cons (e : Event) (ε : Nat → Option Event) (k : Nat) :
    linesOf (consSeq (some e) ε) (k + 1) = e :: linesOf ε k := by
  induction k with
  | zero => rfl
  | succ k ih => rw [linesOf, ih]; rfl

/-- Every state is the start of a weakly fair run. -/
theorem exists_fair_run (s : State) :
    ∃ (σ : Nat → State) (ε : Nat → Option Event), IsRun σ ε ∧ WeaklyFair σ ε ∧ σ 0 = s := by
  obtain ⟨σ, ε, hrun, hfair, h0, -⟩ := fairRunForAnyInputs s (fun _ => none) nofun
  exact ⟨σ, ε, hrun, hfair, h0⟩

/-- A script that goes on is the start of a weakly fair run. -/
theorem exists_fair_run_of_lines (lines rest : List Event) (s t : State)
    (h : Host.Core.run core lines.length { s with script := lines ++ rest } = .next t) :
    ∃ (σ : Nat → State) (ε : Nat → Option Event), IsRun σ ε ∧ WeaklyFair σ ε ∧ σ 0 = s ∧
      linesOf ε lines.length = lines ∧ { σ lines.length with script := rest } = t := by
  induction lines generalizing s with
  | nil =>
    obtain ⟨σ, ε, hrun, hfair, rfl⟩ := exists_fair_run s
    cases (run_zero _).symm.trans h
    exact ⟨σ, ε, hrun, hfair, rfl, rfl, rfl⟩
  | cons e lines ih =>
    obtain ⟨u, hu, h⟩ := run_succ_cases h
    rw [step_line rfl] at hu
    have hfirst : agentStep e s = .next { u with script := s.script } :=
      agentStep_script hu s.script
    have hscript : u = { u with script := lines ++ rest } :=
      Host.Outcome.next.inj (hu.symm.trans (agentStep_script hu (lines ++ rest)))
    rw [hscript] at h
    obtain ⟨σ, ε, hrun, hfair, h0, hlines, ht⟩ := ih { u with script := s.script } h
    exact ⟨consSeq s σ, consSeq (some e) ε, hrun.cons (h0 ▸ hfirst), hfair.cons s (some e), rfl,
      (linesOf_cons e ε _).trans (congrArg (e :: ·) hlines), ht⟩

/-- Settles O57: `IsRun.run_lines`, and a fair run put after the script's steps. -/
theorem runsExtendScripts : Obligations.RunsExtendScripts :=
  ⟨fun _ _ k rest hrun => hrun.run_lines k rest,
    fun s t lines rest => exists_fair_run_of_lines lines rest s t⟩

end Sys2Proof.Machine
end

section
/-! Proofs, fairness between services: what a weakly fair run serves, and the one that starves B. -/

namespace Sys2Proof.Machine

/-- What an instant of a run does: an agent's step, or nothing. -/
theorem IsRun.took {σ : Nat → State} {ε : Nat → Option Event} (hrun : IsRun σ ε) {n : Nat} {e : Event}
    (h : ε n = some e) : Took e (σ n) (σ (n + 1)) := agentStep_next (hrun.step h)

/-- What every agent's step keeps, RESET apart, a run keeps from one instant to the next. -/
theorem IsRun.keeps_instant {σ : Nat → State} {ε : Nat → Option Event} (hrun : IsRun σ ε) {n : Nat}
    {P : State → Prop} (hP : P (σ n))
    (hstep : ∀ e, ε n = some e → Took e (σ n) (σ (n + 1)) → P (σ (n + 1))) : P (σ (n + 1)) := by
  cases he : ε n with
  | none => exact (hrun.idle he).symm ▸ hP
  | some e => exact hstep e he (hrun.took he)

/-- The rule of weak fairness: a property that enables the internal step `e`, and that the run keeps
while `e` is not taken, leads to a first taking of `e`, up to which the property holds. -/
theorem WeaklyFair.leads_to {σ : Nat → State} {ε : Nat → Option Event} (hfair : WeaklyFair σ ε)
    {e : Event} (hi : e.isInternal = true) {P : State → Prop} {n : Nat} (h0 : P (σ n))
    (hen : ∀ m, P (σ m) → (σ m).enables e = true)
    (hkeep : ∀ m, n ≤ m → P (σ m) → ε m ≠ some e → P (σ (m + 1))) :
    ∃ i, n ≤ i ∧ ε i = some e ∧ (∀ m, n ≤ m → m ≤ i → P (σ m)) ∧
      ∀ m, n ≤ m → m < i → ε m ≠ some e := by
  have hwhile (j : Nat) (hnot : ∀ m, n ≤ m → m < j → ε m ≠ some e) (m : Nat) (hm : n ≤ m)
      (hmj : m ≤ j) : P (σ m) := by
    induction m, hm using Nat.le_induction with
    | base => exact h0
    | succ m hm ih => exact hkeep m hm (ih (by omega)) (hnot m hm (by omega))
  have hex : ∃ i, n ≤ i ∧ ε i = some e := by
    by_contra hnone
    have hnot (m : Nat) (hm : n ≤ m) : ε m ≠ some e := fun he => hnone ⟨m, hm, he⟩
    have hall (m : Nat) (hm : n ≤ m) : P (σ m) := hwhile m (fun k hk _ => hnot k hk) m hm le_rfl
    obtain ⟨m, hm, he⟩ := hfair e hi n fun m hm => hen m (hall m hm)
    exact hnot m hm he
  classical
  obtain ⟨hn, he⟩ := Nat.find_spec hex
  have hfirst (m : Nat) (hm : n ≤ m) (hlt : m < Nat.find hex) : ε m ≠ some e := fun hem =>
    Nat.find_min hex hlt ⟨hm, hem⟩
  exact ⟨Nat.find hex, hn, he, hwhile _ hfirst, hfirst⟩

/-- STACK is empty and `x` pending. -/
def State.Waiting (x : Src) (s : State) : Prop :=
  s.Inv ∧ s.stack = [] ∧ s.pend.get x = true

/-- On an idle block a pending source waits until a GRANT or a RESET. -/
theorem State.Waiting.keeps {x : Src} {s t : State} {e : Event} (hs : s.Waiting x)
    (h : Took e s t) (hgrant : e ≠ .grant) (hreset : e ≠ .reset) : t.Waiting x := by
  obtain ⟨hinv, hstack, hpend⟩ := hs
  refine ⟨h.keeps_inv hinv, ?_⟩
  cases h with
  | drive l v =>
    refine ⟨by rw [driveLine_spec]; exact hstack, ?_⟩
    rw [driveLine_pend, Pair.get_set]
    split
    · next hx => rw [← hx, hpend, Bool.true_or]
    · exact hpend
  | grant => exact absurd rfl hgrant
  | sample y _ hy =>
    obtain ⟨htop, -⟩ := maySample_iff.mp hy
    simp [hstack] at htop
  | commit y _ hy =>
    obtain ⟨htop, -⟩ := mayCommit_iff.mp hy
    simp [hstack] at htop
  | command _ _ _ _ _ hx =>
    have hframe := exec_frame hx
    exact ⟨hframe.stack.trans hstack, hframe.pend ▸ hpend⟩
  | illegal => exact ⟨hstack, hpend⟩
  | reset => exact absurd rfl hreset

/-- `x` is on top in phase `ph`, and the other source may not preempt it. -/
structure State.Sheltered (x : Src) (ph : Phase) (s : State) : Prop where
  inv : s.Inv
  onTop : s.stack.getLast? = some x
  inPhase : s.phase.get x = ph
  safe : x.other ∈ s.stack ∨ s.pre x ≤ s.pre x.other

/-- No source is granted over a sheltered service. -/
theorem State.Sheltered.no_grantee {x : Src} {ph : Phase} {s : State} (hs : s.Sheltered x ph) :
    s.grantee = none := by
  refine grantee_none.mpr fun y => Bool.eq_false_iff.mpr fun hy => ?_
  obtain ⟨-, -, -, hpre⟩ := eligible_spec hy
  have hnot := hs.inv.not_mem_of_eligible hy
  by_cases hyx : y = x
  · exact hnot (hyx ▸ List.mem_of_getLast? hs.onTop)
  · cases Src.eq_other_of_ne hyx
    rcases hs.safe with hmem | hle
    · exact hnot hmem
    · exact absurd (hpre x hs.onTop) (Nat.not_lt.mpr hle)

/-- A step over a sheltered service leaves STACK, PRIO and, but for its own SAMPLE, PHASE. -/
theorem State.Sheltered.frame {x : Src} {ph : Phase} {s t : State} {e : Event}
    (hs : s.Sheltered x ph) (h : Took e s t) (hreset : e ≠ .reset) (hcommit : e ≠ .commit x) :
    t.stack = s.stack ∧ t.prio = s.prio ∧ (e ≠ .sample x → t.phase = s.phase) := by
  cases h with
  | drive l v => rw [driveLine_spec]; exact ⟨rfl, rfl, fun _ => rfl⟩
  | grant y _ hy => cases hs.no_grantee.symm.trans hy
  | sample y _ hy =>
    obtain ⟨htop, -⟩ := maySample_iff.mp hy
    cases hs.onTop.symm.trans htop
    exact ⟨rfl, rfl, fun hne => absurd rfl hne⟩
  | commit y _ hy =>
    obtain ⟨htop, -⟩ := mayCommit_iff.mp hy
    cases hs.onTop.symm.trans htop
    exact absurd rfl hcommit
  | command _ _ _ _ _ hx =>
    have hframe := exec_frame hx
    have hbusy := List.ne_nil_of_mem (List.mem_of_getLast? hs.onTop)
    exact ⟨hframe.stack, hframe.prio hbusy, fun _ => hframe.phase⟩
  | illegal => exact ⟨rfl, rfl, fun _ => rfl⟩
  | reset => exact absurd rfl hreset

/-- Until its COMMIT or a RESET a service stays sheltered, in whatever phase its channel then is. -/
theorem State.Sheltered.keeps {x : Src} {ph : Phase} {s t : State} {e : Event}
    (hs : s.Sheltered x ph) (h : Took e s t) (hreset : e ≠ .reset) (hcommit : e ≠ .commit x) :
    t.Sheltered x (t.phase.get x) := by
  obtain ⟨hstack, hprio, -⟩ := hs.frame h hreset hcommit
  refine ⟨h.keeps_inv hs.inv, hstack ▸ hs.onTop, rfl, ?_⟩
  simpa only [State.pre, hstack, hprio] using hs.safe

/-- A sheltered service leaves its phase only by its own SAMPLE and COMMIT. -/
theorem State.Sheltered.keeps_phase {x : Src} {ph : Phase} {s t : State} {e : Event}
    (hs : s.Sheltered x ph) (h : Took e s t) (hreset : e ≠ .reset) (hsample : e ≠ .sample x)
    (hcommit : e ≠ .commit x) : t.Sheltered x ph := by
  obtain ⟨-, -, hphase⟩ := hs.frame h hreset hcommit
  have hkept := hs.keeps h hreset hcommit
  rwa [hphase hsample, hs.inPhase] at hkept

theorem Took.sample_phase {x : Src} {s t : State} (h : Took (.sample x) s t) :
    s.phase.get x = .granted ∧ t.phase.get x = .sampled := by
  cases h with
  | sample _ _ hx => exact ⟨(maySample_iff.mp hx).2, Pair.get_set_same _ _ _⟩

theorem Took.commit_phase {x : Src} {s t : State} (h : Took (.commit x) s t) :
    s.phase.get x = .sampled := by
  cases h with
  | commit _ _ hx => exact (mayCommit_iff.mp hx).2

section FairRun
variable {σ : Nat → State} {ε : Nat → Option Event} {n : Nat} {x : Src}

/-- An edge pending on an idle block, on a source that stays enabled, is followed by a GRANT. -/
theorem fair_run_grants (hrun : IsRun σ ε) (hfair : WeaklyFair σ ε)
    (hreset : ∀ m, n ≤ m → ε m ≠ some .reset) (hwait : (σ n).Waiting x)
    (hen : ∀ m, n ≤ m → (σ m).en.get x = true) : ∃ m, n ≤ m ∧ ε m = some .grant := by
  by_contra hnone
  have hkept (m : Nat) (hm : n ≤ m) : (σ m).Waiting x := by
    induction m, hm using Nat.le_induction with
    | base => exact hwait
    | succ m hm ih =>
      exact hrun.keeps_instant ih fun e he h => ih.keeps h
        (fun hg => hnone ⟨m, hm, hg ▸ he⟩) (fun hr => hreset m hm (hr ▸ he))
  obtain ⟨m, hm, he⟩ := hfair .grant rfl n fun m hm => by
    obtain ⟨hinv, hstack, hpend⟩ := hkept m hm
    exact enables_grant.mpr ⟨x, (hinv.eligible_iff_of_idle hstack x).mpr ⟨hpend, hen m hm⟩⟩
  exact hnone ⟨m, hm, he⟩

/-- A sheltered service in phase GRANTED samples, and until then neither samples nor commits. -/
theorem fair_run_samples (hrun : IsRun σ ε) (hfair : WeaklyFair σ ε)
    (hreset : ∀ m, n ≤ m → ε m ≠ some .reset) (hs : (σ n).Sheltered x .granted) :
    ∃ i, n ≤ i ∧ ε i = some (.sample x) ∧ (∀ m, n ≤ m → m ≤ i → (σ m).phase.get x = .granted) ∧
      (∀ m, n ≤ m → m < i → ε m ≠ some (.sample x)) ∧ (σ (i + 1)).Sheltered x .sampled := by
  obtain ⟨i, hi, he, hgranted, hfirst⟩ := hfair.leads_to (e := .sample x) rfl hs
    (fun m hm => enables_sample.mpr ⟨hm.onTop, hm.inPhase⟩) fun m hm ih hne =>
      hrun.keeps_instant ih fun e he h => by
        refine ih.keeps_phase h (fun hr => hreset m hm (hr ▸ he))
          (fun hsample => hne (hsample ▸ he)) ?_
        rintro rfl
        cases ih.inPhase.symm.trans h.commit_phase
  refine ⟨i, hi, he, fun m hm hmi => (hgranted m hm hmi).inPhase, hfirst, ?_⟩
  obtain ⟨-, hsampled⟩ := (hrun.took he).sample_phase
  exact hsampled ▸ (hgranted i hi le_rfl).keeps (hrun.took he) nofun nofun

/-- A sheltered service in phase SAMPLED commits, and until then neither samples nor commits. -/
theorem fair_run_commits (hrun : IsRun σ ε) (hfair : WeaklyFair σ ε)
    (hreset : ∀ m, n ≤ m → ε m ≠ some .reset) (hs : (σ n).Sheltered x .sampled) :
    ∃ j, n ≤ j ∧ ε j = some (.commit x) ∧ (∀ m, n ≤ m → m ≤ j → (σ m).phase.get x = .sampled) ∧
      ∀ m, n ≤ m → m < j → ε m ≠ some (.commit x) := by
  obtain ⟨j, hj, he, hsampled, hfirst⟩ := hfair.leads_to (e := .commit x) rfl hs
    (fun m hm => enables_commit.mpr ⟨hm.onTop, hm.inPhase⟩) fun m hm ih hne =>
      hrun.keeps_instant ih fun e he h => by
        refine ih.keeps_phase h (fun hr => hreset m hm (hr ▸ he)) ?_
          (fun hcommit => hne (hcommit ▸ he))
        rintro rfl
        cases ih.inPhase.symm.trans h.sample_phase.1
  exact ⟨j, hj, he, fun m hm hmj => (hsampled m hm hmj).inPhase, hfirst⟩

/-- A sheltered service samples once and then commits once. -/
theorem fair_run_serves (hrun : IsRun σ ε) (hfair : WeaklyFair σ ε)
    (hreset : ∀ m, n ≤ m → ε m ≠ some .reset) (hs : (σ n).Sheltered x .granted) :
    ∃ i j, n ≤ i ∧ i < j ∧ ε i = some (.sample x) ∧ ε j = some (.commit x) ∧
      ∀ k, n ≤ k → k ≤ j →
        (ε k = some (.sample x) → k = i) ∧ (ε k = some (.commit x) → k = j) := by
  obtain ⟨i, hni, hi, hgranted, hfirst, hs'⟩ := fair_run_samples hrun hfair hreset hs
  obtain ⟨j, hij, hj, hsampled, hfirst'⟩ :=
    fair_run_commits hrun hfair (fun m hm => hreset m (by omega)) hs'
  refine ⟨i, j, hni, hij, hi, hj, fun k hnk hkj => ?_⟩
  rcases Nat.lt_or_ge i k with hik | hki
  · refine ⟨fun hk => ?_, fun hk => ?_⟩
    · obtain ⟨hph, -⟩ := (hrun.took hk).sample_phase
      cases hph.symm.trans (hsampled k hik hkj)
    · by_contra hne
      exact hfirst' k hik (by omega) hk
  · refine ⟨fun hk => ?_, fun hk => ?_⟩
    · by_contra hne
      exact hfirst k hnk (by omega) hk
    · cases (hrun.took hk).commit_phase.symm.trans (hgranted k hnk hki)

end FairRun

/-- Settles O59: `fair_run_grants` of a waiting source, and `fair_run_serves` of a sheltered service. -/
theorem fairRunServes : Obligations.FairRunServes := fun _ _ _ _ hrun hfair hinv hreset =>
  ⟨fun hstack hpend hen => fair_run_grants hrun hfair hreset ⟨hinv, hstack, hpend⟩ hen,
    fun htop hph hsafe => fair_run_serves hrun hfair hreset ⟨hinv, htop, hph, hsafe⟩⟩

/-! ### Starvation -/

/-- B pending, enabled and IDLE on an armed block with equal priorities; A pending or not, its line
driven so, in this phase of its service. -/
def starving (pendA : Bool) (drvA : Drive) (phaseA : Phase) : State :=
  { State.reset with
    armed := true
    en := ⟨true, true⟩
    pend := ⟨pendA, true⟩
    drv := ⟨drvA, .z⟩
    phase := ⟨phaseA, .idle⟩
    stack := if phaseA = .idle then [] else [.a] }

theorem starving_inv (pendA : Bool) (drvA : Drive) : (starving pendA drvA .idle).Inv :=
  { State.Inv.of_resetBlock State.reset with unarmed := nofun }

/-- Five instants that go round: A, pending again before its service ends, is granted each time. -/
def starvingRound : Nat → State × Event
  | 0 => (starving true .low .idle, .grant)
  | 1 => (starving false .low .granted, .drive .a .high)
  | 2 => (starving false .high .granted, .drive .a .low)
  | 3 => (starving true .low .granted, .sample .a)
  | _ => (starving true .low .sampled, .commit .a)

theorem starvingRound_step (r : Nat) (hr : r < 5) :
    agentStep (starvingRound r).2 (starvingRound r).1 = .next (starvingRound ((r + 1) % 5)).1 := by
  match r with
  | 0 | 1 | 2 | 3 | 4 => rfl

/-- B is in the same plight at every instant of the round. -/
theorem starvingRound_eq (r : Nat) :
    ∃ pendA drvA phaseA, (starvingRound r).1 = starving pendA drvA phaseA := by
  unfold starvingRound
  split <;> exact ⟨_, _, _, rfl⟩

theorem starving_isRun :
    IsRun (fun n => (starvingRound (n % 5)).1) (fun n => some (starvingRound (n % 5)).2) := by
  intro n
  have hstep := starvingRound_step (n % 5) (Nat.mod_lt n (by decide))
  rwa [Nat.mod_add_mod] at hstep

/-- Settles O60: the round repeats for ever; it takes the block's own step once in five instants, which
makes it weakly fair. -/
theorem starvationIsFair : Obligations.StarvationIsFair := by
  have hround (r n : Nat) (hr : r < 5) : ∃ m, n ≤ m ∧ m % 5 = r := ⟨5 * n + r, by omega, by omega⟩
  refine ⟨_, _, starving_isRun, weaklyFair_of_ownSteps starving_isRun fun n => ?_,
    starving_inv true .low, fun n => ?_, fun n => ?_, fun n => ?_⟩
  · obtain ⟨m, hm, hr⟩ := hround 0 n (by decide)
    refine ⟨m, hm, ?_⟩
    simp only [hr]
    rfl
  · obtain ⟨pendA, drvA, phaseA, h⟩ := starvingRound_eq (n % 5)
    simp only [h]
    exact ⟨rfl, rfl, rfl⟩
  · obtain ⟨m, hm, hr⟩ := hround 0 n (by decide)
    exact ⟨m, hm, by simp only [hr]; rfl⟩
  · obtain ⟨m, hm, hr⟩ := hround 2 n (by decide)
    exact ⟨m, hm, by simp only [hr]; rfl⟩

end Sys2Proof.Machine
end
